-- ==== Sys2Proof/Word.lean ====
section
/-! DEFINITION. The value types of the machine, as 00_scope.md R8, R9 and R12 use them: bytes, 16-bit words,
12-bit address immediates, 4-bit register indices and counts, and the keypad lines. Every value is unsigned (R8). -/

namespace Sys2Proof

/-- An 8-bit value: a memory byte, a general register, a timer, an nn immediate (R8, R21, R33). -/
abbrev Byte := BitVec 8

/-- A 16-bit value: an instruction word, pc, I, a stack slot (R24, R26, R30, R70). -/
abbrev Word := BitVec 16

/-- The 12-bit immediate nnn (R70, R72). -/
abbrev Addr := BitVec 12

/-- A 4-bit register index, 0 to 15 (R21, R70). -/
abbrev Reg := Fin 16

/-- The 4-bit sprite height n, 0 to 15 (R70, R72). -/
abbrev Height := Fin 16

/-- The 16 keypad lines of one cycle call; line k is true when pressed (R39). -/
abbrev Keypad := Vector Bool 16

/-- Register 15, VF, the flag output (R22). -/
abbrev vf : Reg := 15

end Sys2Proof
end

