-- ==== Sys2Proof/Syntax.lean ====
section
/-! DEFINITION. The instructions: one constructor per row of spec/opcode_table.json (30_encoding.md R74, R82), each
carrying its decoded operands. The unmatched words of R77 are no row of the table and no constructor: the decoder
names them (Decode.lean) and the cycle engine gives them their no-op (R98). -/

namespace Sys2Proof

/-- The 35 operations of R82, under the names of the opcode table. -/
inductive Instr where
  /-- 00E0 CLS (R190). -/
  | cls
  /-- 00EE RET (R123). -/
  | ret
  /-- 0NNN SYS nnn (R120). -/
  | sys (nnn : Addr)
  /-- 1NNN JP nnn (R121). -/
  | jp (nnn : Addr)
  /-- 2NNN CALL nnn (R122). -/
  | call (nnn : Addr)
  /-- 3XNN SE Vx, nn (R124). -/
  | seImm (x : Reg) (nn : Byte)
  /-- 4XNN SNE Vx, nn (R125). -/
  | sneImm (x : Reg) (nn : Byte)
  /-- 5XY0 SE Vx, Vy (R126). -/
  | seReg (x y : Reg)
  /-- 6XNN LD Vx, nn (R142). -/
  | ldImm (x : Reg) (nn : Byte)
  /-- 7XNN ADD Vx, nn (R143). -/
  | addImm (x : Reg) (nn : Byte)
  /-- 8XY0 LD Vx, Vy (R144). -/
  | ldReg (x y : Reg)
  /-- 8XY1 OR Vx, Vy (R145). -/
  | or (x y : Reg)
  /-- 8XY2 AND Vx, Vy (R146). -/
  | and (x y : Reg)
  /-- 8XY3 XOR Vx, Vy (R147). -/
  | xor (x y : Reg)
  /-- 8XY4 ADD Vx, Vy (R148). -/
  | addReg (x y : Reg)
  /-- 8XY5 SUB Vx, Vy (R149). -/
  | sub (x y : Reg)
  /-- 8XY6 SHR Vx, Vy (R150); y is encoded and ignored. -/
  | shr (x y : Reg)
  /-- 8XY7 SUBN Vx, Vy (R151). -/
  | subn (x y : Reg)
  /-- 8XYE SHL Vx, Vy (R152); y is encoded and ignored. -/
  | shl (x y : Reg)
  /-- 9XY0 SNE Vx, Vy (R127). -/
  | sneReg (x y : Reg)
  /-- ANNN LD I, nnn (R170). -/
  | ldI (nnn : Addr)
  /-- BNNN JP V0, nnn (R128). -/
  | jpV0 (nnn : Addr)
  /-- CXNN RND Vx, nn (R153). -/
  | rnd (x : Reg) (nn : Byte)
  /-- DXYN DRW Vx, Vy, n (R191). -/
  | drw (x y : Reg) (n : Height)
  /-- EX9E SKP Vx (R202). -/
  | skp (x : Reg)
  /-- EXA1 SKNP Vx (R203). -/
  | sknp (x : Reg)
  /-- FX07 LD Vx, DT (R204). -/
  | ldFromDt (x : Reg)
  /-- FX0A LD Vx, K (R205). -/
  | ldK (x : Reg)
  /-- FX15 LD DT, Vx (R206). -/
  | ldDt (x : Reg)
  /-- FX18 LD ST, Vx (R207). -/
  | ldSt (x : Reg)
  /-- FX1E ADD I, Vx (R171). -/
  | addI (x : Reg)
  /-- FX29 LD F, Vx (R172). -/
  | ldF (x : Reg)
  /-- FX33 LD B, Vx (R173). -/
  | ldB (x : Reg)
  /-- FX55 LD [I], Vx (R174), STORE in the table. -/
  | store (x : Reg)
  /-- FX65 LD Vx, [I] (R175), LOAD in the table. -/
  | load (x : Reg)
  deriving DecidableEq, Repr

end Sys2Proof
end

