-- ==== Sys2Proof/WellFormed.lean ====
section
/-! DEFINITION. Which instructions are well formed: those some word decodes to. The operand types already bound every
field (R70), so the one check is R75's: the words 0x00E0 and 0x00EE are CLS and RET, hence no SYS. -/

namespace Sys2Proof

/-- R75: SYS nnn exists for every nnn but 0x0E0 and 0x0EE, whose words are CLS and RET. -/
abbrev Instr.wf : Instr → Bool
  | .sys nnn => nnn != 0x0E0 && nnn != 0x0EE
  | .cls | .ret | .jp _ | .call _ | .seImm _ _ | .sneImm _ _ | .seReg _ _ | .ldImm _ _ | .addImm _ _ => true
  | .ldReg _ _ | .or _ _ | .and _ _ | .xor _ _ | .addReg _ _ | .sub _ _ | .shr _ _ | .subn _ _ | .shl _ _ => true
  | .sneReg _ _ | .ldI _ | .jpV0 _ | .rnd _ _ | .drw _ _ _ | .skp _ | .sknp _ | .ldFromDt _ | .ldK _ => true
  | .ldDt _ | .ldSt _ | .addI _ | .ldF _ | .ldB _ | .store _ | .load _ => true

end Sys2Proof
end

