-- ==== Sys2Proof/Decode.lean ====
section
/-! DEFINITION. The decoder (30_encoding.md R70 to R77, R82), total on words and on byte lists, rejecting by name, and
after it the encoder, written from the same patterns. The bit patterns are the spec's own decision D2 (log entry 8). -/

namespace Sys2Proof

/-! The nibble fields of R70. -/

/-- op, w[15:12]. -/
def fieldOp (w : Word) : BitVec 4 := w.extractLsb' 12 4

/-- x, w[11:8], a register index. -/
def fieldX (w : Word) : Reg := (w.extractLsb' 8 4).toFin

/-- y, w[7:4], a register index. -/
def fieldY (w : Word) : Reg := (w.extractLsb' 4 4).toFin

/-- n, w[3:0]. -/
def fieldN (w : Word) : Height := (w.extractLsb' 0 4).toFin

/-- nnn, w[11:0]. -/
def fieldNNN (w : Word) : Addr := w.extractLsb' 0 12

/-- nn, w[7:0]. -/
def fieldNN (w : Word) : Byte := w.extractLsb' 0 8

/-- What the decoder outputs (R82): one of the 35 operations, or UNMATCHED carrying the word (R77; log entry 17). -/
inductive Decoded where
  | instr (i : Instr)
  | unmatched (w : Word)
  deriving DecidableEq, Repr

/-- The op = 0x0 group: the two exact words first, every other word is SYS (R75). -/
def decodeGroup0 (w : Word) : Decoded :=
  if w = 0x00E0 then .instr .cls
  else if w = 0x00EE then .instr .ret
  else .instr (.sys (fieldNNN w))

/-- The op = 0x8 group, by its n nibble (R74, R76). -/
def decodeGroup8 (w : Word) : Decoded :=
  match (fieldN w).val with
  | 0x0 => .instr (.ldReg (fieldX w) (fieldY w))
  | 0x1 => .instr (.or (fieldX w) (fieldY w))
  | 0x2 => .instr (.and (fieldX w) (fieldY w))
  | 0x3 => .instr (.xor (fieldX w) (fieldY w))
  | 0x4 => .instr (.addReg (fieldX w) (fieldY w))
  | 0x5 => .instr (.sub (fieldX w) (fieldY w))
  | 0x6 => .instr (.shr (fieldX w) (fieldY w))
  | 0x7 => .instr (.subn (fieldX w) (fieldY w))
  | 0xE => .instr (.shl (fieldX w) (fieldY w))
  | _ => .unmatched w

/-- The op = 0xE group, by its nn byte (R74, R76). -/
def decodeGroupE (w : Word) : Decoded :=
  if fieldNN w = 0x9E then .instr (.skp (fieldX w))
  else if fieldNN w = 0xA1 then .instr (.sknp (fieldX w))
  else .unmatched w

/-- The op = 0xF group, by its nn byte (R74, R76). -/
def decodeGroupF (w : Word) : Decoded :=
  if fieldNN w = 0x07 then .instr (.ldFromDt (fieldX w))
  else if fieldNN w = 0x0A then .instr (.ldK (fieldX w))
  else if fieldNN w = 0x15 then .instr (.ldDt (fieldX w))
  else if fieldNN w = 0x18 then .instr (.ldSt (fieldX w))
  else if fieldNN w = 0x1E then .instr (.addI (fieldX w))
  else if fieldNN w = 0x29 then .instr (.ldF (fieldX w))
  else if fieldNN w = 0x33 then .instr (.ldB (fieldX w))
  else if fieldNN w = 0x55 then .instr (.store (fieldX w))
  else if fieldNN w = 0x65 then .instr (.load (fieldX w))
  else .unmatched w

/-- The opcode map of R74, a function of the word alone. -/
def decode (w : Word) : Decoded :=
  match (fieldOp w).toNat with
  | 0x0 => decodeGroup0 w
  | 0x1 => .instr (.jp (fieldNNN w))
  | 0x2 => .instr (.call (fieldNNN w))
  | 0x3 => .instr (.seImm (fieldX w) (fieldNN w))
  | 0x4 => .instr (.sneImm (fieldX w) (fieldNN w))
  | 0x5 => if fieldN w = 0 then .instr (.seReg (fieldX w) (fieldY w)) else .unmatched w
  | 0x6 => .instr (.ldImm (fieldX w) (fieldNN w))
  | 0x7 => .instr (.addImm (fieldX w) (fieldNN w))
  | 0x8 => decodeGroup8 w
  | 0x9 => if fieldN w = 0 then .instr (.sneReg (fieldX w) (fieldY w)) else .unmatched w
  | 0xA => .instr (.ldI (fieldNNN w))
  | 0xB => .instr (.jpV0 (fieldNNN w))
  | 0xC => .instr (.rnd (fieldX w) (fieldNN w))
  | 0xD => .instr (.drw (fieldX w) (fieldY w) (fieldN w))
  | 0xE => decodeGroupE w
  | _ => decodeGroupF w

/-- The word of two consecutive bytes, high byte first (20_memory.md R53). -/
def wordOfBytes (hi lo : Byte) : Word := hi ++ lo

/-- The high byte of a word, the one at the lower address (R53, R54). -/
def highByte (w : Word) : Byte := w.extractLsb' 8 8

/-- The low byte of a word, the one at the higher address (R53, R54). -/
def lowByte (w : Word) : Byte := w.extractLsb' 0 8

/-- Why a byte list gives no instruction. -/
inductive DecodeReject where
  /-- Fewer than the two bytes every instruction has (R79). -/
  | truncated
  /-- A word no pattern matches (R77). -/
  | unmatched (w : Word)
  deriving DecidableEq, Repr

/-- The decoder on bytes: the first instruction and the bytes after it, or the reason there is none. -/
def decodeBytes : List Byte → Except DecodeReject (Instr × List Byte)
  | hi :: lo :: rest =>
    match decode (wordOfBytes hi lo) with
    | .instr i => .ok (i, rest)
    | .unmatched w => .error (.unmatched w)
  | _ => .error .truncated

/-- The instruction the decoder reads from a table word: bit 0 is the least significant bit of the first word, bits
from nbits on are 0, and the word is laid out high byte first (R53). -/
def decodeTableWord (nbits w : Nat) : Option Instr :=
  let first : Word := BitVec.ofNat 16 (w % 2 ^ nbits)
  match decodeBytes [highByte first, lowByte first] with
  | .ok (i, _) => some i
  | .error _ => none

/-! The encoder: the layouts of R71 and the patterns of R74. -/

/-- The address layout: op, nnn. -/
def packNNN (op : BitVec 4) (nnn : Addr) : Word := op ++ nnn

/-- The register-immediate and register-subop layouts: op, x, nn. -/
def packXNN (op : BitVec 4) (x : Reg) (nn : Byte) : Word := packNNN op (BitVec.ofFin x ++ nn)

/-- The register-register and register-register-count layouts: op, x, y, n. -/
def packXYN (op : BitVec 4) (x y : Reg) (n : Height) : Word :=
  packXNN op x (BitVec.ofFin y ++ (BitVec.ofFin n : BitVec 4))

/-- The word of an instruction (R74, R80). -/
def encode : Instr → Word
  | .cls => 0x00E0
  | .ret => 0x00EE
  | .sys nnn => packNNN 0x0 nnn
  | .jp nnn => packNNN 0x1 nnn
  | .call nnn => packNNN 0x2 nnn
  | .seImm x nn => packXNN 0x3 x nn
  | .sneImm x nn => packXNN 0x4 x nn
  | .seReg x y => packXYN 0x5 x y 0x0
  | .ldImm x nn => packXNN 0x6 x nn
  | .addImm x nn => packXNN 0x7 x nn
  | .ldReg x y => packXYN 0x8 x y 0x0
  | .or x y => packXYN 0x8 x y 0x1
  | .and x y => packXYN 0x8 x y 0x2
  | .xor x y => packXYN 0x8 x y 0x3
  | .addReg x y => packXYN 0x8 x y 0x4
  | .sub x y => packXYN 0x8 x y 0x5
  | .shr x y => packXYN 0x8 x y 0x6
  | .subn x y => packXYN 0x8 x y 0x7
  | .shl x y => packXYN 0x8 x y 0xE
  | .sneReg x y => packXYN 0x9 x y 0x0
  | .ldI nnn => packNNN 0xA nnn
  | .jpV0 nnn => packNNN 0xB nnn
  | .rnd x nn => packXNN 0xC x nn
  | .drw x y n => packXYN 0xD x y n
  | .skp x => packXNN 0xE x 0x9E
  | .sknp x => packXNN 0xE x 0xA1
  | .ldFromDt x => packXNN 0xF x 0x07
  | .ldK x => packXNN 0xF x 0x0A
  | .ldDt x => packXNN 0xF x 0x15
  | .ldSt x => packXNN 0xF x 0x18
  | .addI x => packXNN 0xF x 0x1E
  | .ldF x => packXNN 0xF x 0x29
  | .ldB x => packXNN 0xF x 0x33
  | .store x => packXNN 0xF x 0x55
  | .load x => packXNN 0xF x 0x65

/-- The instruction's two bytes as the hardware stores them, high byte first (R53). -/
def encodeBytes (i : Instr) : List Byte := [highByte (encode i), lowByte (encode i)]

/-! The rows of spec/opcode_table.json: which bits are fixed, and to what. -/

/-- A row's mask: 1 where the pattern fixes the bit. -/
def tableMask : Instr → Word
  | .cls | .ret => 0xFFFF
  | .sys _ | .jp _ | .call _ | .seImm _ _ | .sneImm _ _ | .ldImm _ _ | .addImm _ _ => 0xF000
  | .ldI _ | .jpV0 _ | .rnd _ _ | .drw _ _ _ => 0xF000
  | .seReg _ _ | .ldReg _ _ | .or _ _ | .and _ _ | .xor _ _ | .addReg _ _ | .sub _ _ => 0xF00F
  | .shr _ _ | .subn _ _ | .shl _ _ | .sneReg _ _ => 0xF00F
  | .skp _ | .sknp _ | .ldFromDt _ | .ldK _ | .ldDt _ | .ldSt _ | .addI _ | .ldF _ => 0xF0FF
  | .ldB _ | .store _ | .load _ => 0xF0FF

/-- A row's match value: the fixed bits. -/
def tableMatch : Instr → Word
  | .cls => 0x00E0
  | .ret => 0x00EE
  | .sys _ => 0x0000
  | .jp _ => 0x1000
  | .call _ => 0x2000
  | .seImm _ _ => 0x3000
  | .sneImm _ _ => 0x4000
  | .seReg _ _ => 0x5000
  | .ldImm _ _ => 0x6000
  | .addImm _ _ => 0x7000
  | .ldReg _ _ => 0x8000
  | .or _ _ => 0x8001
  | .and _ _ => 0x8002
  | .xor _ _ => 0x8003
  | .addReg _ _ => 0x8004
  | .sub _ _ => 0x8005
  | .shr _ _ => 0x8006
  | .subn _ _ => 0x8007
  | .shl _ _ => 0x800E
  | .sneReg _ _ => 0x9000
  | .ldI _ => 0xA000
  | .jpV0 _ => 0xB000
  | .rnd _ _ => 0xC000
  | .drw _ _ _ => 0xD000
  | .skp _ => 0xE09E
  | .sknp _ => 0xE0A1
  | .ldFromDt _ => 0xF007
  | .ldK _ => 0xF00A
  | .ldDt _ => 0xF015
  | .ldSt _ => 0xF018
  | .addI _ => 0xF01E
  | .ldF _ => 0xF029
  | .ldB _ => 0xF033
  | .store _ => 0xF055
  | .load _ => 0xF065

end Sys2Proof
end

