-- ==== Sys2Proof/Config.lean ====
section
/-! DEFINITION. What is fixed for one machine and what stays open: the parameters of 00_scope.md R7, this spec's
values for them, the two OPEN ones (no value: opaque constants), the free inputs of a cycle call, and the font. -/

namespace Sys2Proof.Config

/-- ODD_PC_FETCH (R55, D4): what a fetch at an odd pc does. -/
inductive OddPcFetch where
  | fault
  | fetch
  deriving DecidableEq, Repr, Inhabited

/-- RET_RESUME_OFFSET (R123, D5): what RET adds to the popped address, 0 or 2. -/
inductive RetResumeOffset where
  | zero
  | two
  deriving DecidableEq, Repr, Inhabited

/-- The offset as a 16-bit value. -/
def RetResumeOffset.toWord : RetResumeOffset → Word
  | .zero => 0
  | .two => 2

/-- VF_DEST_ORDER (R141, D6): which write lands last when a flag-setting instruction has x = F. -/
inductive VfDestOrder where
  | flagLast
  | resultLast
  deriving DecidableEq, Repr, Inhabited

/-- SPRITE_Y_MODULUS (R193, D14): the modulus of a sprite's start row, 64 or 32. -/
inductive SpriteYModulus where
  | m64
  | m32
  deriving DecidableEq, Repr, Inhabited

/-- The modulus as a number. -/
def SpriteYModulus.toNat : SpriteYModulus → Nat
  | .m64 => 64
  | .m32 => 32

/-- DEBUG_LEVEL (R41): 0, 1, 2 or 3. -/
abbrev DebugLevel := Fin 4

/-- The parameters a model takes as arguments (R7). State carries one such record, which no step writes, so that a
statement about every state is a statement about every value of every parameter. -/
structure Params where
  /-- ODD_PC_FETCH. -/
  oddPcFetch : OddPcFetch
  /-- RET_RESUME_OFFSET. -/
  retResumeOffset : RetResumeOffset
  /-- VF_DEST_ORDER. -/
  vfDestOrder : VfDestOrder
  /-- SPRITE_Y_MODULUS. -/
  spriteYModulus : SpriteYModulus
  /-- DEBUG_LEVEL. -/
  debugLevel : DebugLevel
  /-- SINGLE_STEP_FALLTHROUGH. -/
  singleStepFallthrough : Bool
  deriving DecidableEq, Repr

/-- FREE VALUE. VF_DEST_ORDER is OPEN (R7, R141, D6): claims must hold for both values (log entry 4). -/
opaque vfDestOrder : VfDestOrder

/-- FREE VALUE. SINGLE_STEP_FALLTHROUGH is OPEN (R7, R94, D17): claims must hold for both values (log entry 5). -/
opaque singleStepFallthrough : Bool

/-- FREE VALUE. The keypad lines the host sends with its k-th cycle call when the state lists no request for that
call (R39, U27; log entry 2). -/
opaque freeKeypad : Nat → Keypad

/-- FREE VALUE. The random byte of the k-th cycle call when the state lists no request for that call: a draw under
no law (R40, U2; log entry 2). -/
opaque freeRnd : Nat → Byte

/-- This spec's values of the parameters (R7; log entry 14); the two OPEN ones are the opaque constants above. -/
def params : Params where
  oddPcFetch := .fault
  retResumeOffset := .zero
  vfDestOrder := vfDestOrder
  spriteYModulus := .m64
  debugLevel := 0
  singleStepFallthrough := singleStepFallthrough

/-- FONT (R38, D21): 16 glyphs of 5 bytes, glyph d at address 5d. -/
abbrev Font := Vector Byte 80

/-- The bytes of the standard font, glyph by glyph (R38's table; PRESUMED, log entry 9). -/
def standardFontBytes : List Byte :=
  [0xF0, 0x90, 0x90, 0x90, 0xF0] ++ [0x20, 0x60, 0x20, 0x20, 0x70] ++
  [0xF0, 0x10, 0xF0, 0x80, 0xF0] ++ [0xF0, 0x10, 0xF0, 0x10, 0xF0] ++
  [0x90, 0x90, 0xF0, 0x10, 0x10] ++ [0xF0, 0x80, 0xF0, 0x10, 0xF0] ++
  [0xF0, 0x80, 0xF0, 0x90, 0xF0] ++ [0xF0, 0x10, 0x20, 0x40, 0x40] ++
  [0xF0, 0x90, 0xF0, 0x90, 0xF0] ++ [0xF0, 0x90, 0xF0, 0x10, 0xF0] ++
  [0xF0, 0x90, 0xF0, 0x90, 0x90] ++ [0xE0, 0x90, 0xE0, 0x90, 0xE0] ++
  [0xF0, 0x80, 0x80, 0x80, 0xF0] ++ [0xE0, 0x90, 0x90, 0x90, 0xE0] ++
  [0xF0, 0x80, 0xF0, 0x80, 0xF0] ++ [0xF0, 0x80, 0xF0, 0x80, 0x80]

/-- This spec's value of FONT (R38). The load takes the font as an argument; a claim about glyph bytes holds only for
the font it names. -/
def standardFont : Font := ⟨standardFontBytes.toArray, by decide⟩

end Sys2Proof.Config
end

