-- ==== Sys2Proof/Machine/State.lean ====
section
/-! DEFINITION. The architectural state of 10_state.md R20, as plain data; the fault record of 60_exceptions.md R221;
the refusals; and the construction state (R45, R250). Below the thirteen elements of R20 stand the model's own fields:
the parameters, the host's requests, its load, and the log output. -/

namespace Sys2Proof.Machine

/-- MEM (R38, R50): address and byte pairs in the one canonical form of Memory.wf (Ops.lean). -/
abbrev Memory := List Host.Cell

/-- FB (R34): 32 rows of 64 pixels, true is a set pixel. -/
abbrev Framebuffer := Vector (Vector Bool 64) 32

/-- The fatal faults with what FAULT records of each (R221). Recorded in State.fault by raiseFault when a cycle call
raises it (a NEXT state, R229); every later call stops with it as the step's outcome (R92, R231). -/
inductive Fault where
  /-- Code 1. Raised by the fetch with pc above 4094 (R222). Safe: the document makes it fatal. -/
  | fetchOutOfRange (pc : Word)
  /-- Code 2. Raised by the fetch with pc odd, when ODD_PC_FETCH = fault (R223). Safe: it stops where hardware might go on. -/
  | misalignedFetch (pc : Word)
  /-- Code 3. Raised by CALL with SP = 16 (R224). Safe: the document makes it fatal. -/
  | stackOverflow (pc : Word) (w : Word)
  /-- Code 4. Raised by DXYN, FX33, FX55, FX65 when a byte they reach lies above 4095 (R225). Safe: the document makes it fatal. -/
  | memOutOfRange (pc : Word) (w : Word) (i : Word)
  /-- Code 5. Raised by SKP and SKNP with V[x] above 15 (R226). Safe: it stops where hardware might go on. -/
  | keyIndexOutOfRange (pc : Word) (w : Word) (vx : Byte)
  deriving DecidableEq, Repr

/-- What the model gives no meaning. The three load refusals are answers of State.load only; no step gives one. -/
inductive Refusal where
  /-- An instruction without a meaning yet, by its table mnemonic. Raised by exec's arms alone; in this model by none. Safe. -/
  | notModelled (mnemonic : String)
  /-- A load whose start_offset + length exceeds 4096 (R252). Raised by State.load. Safe: the host's duty. -/
  | loadPastCapacity
  /-- A load longer than 3584 bytes, or longer than the bytes it gives (R252). Raised by State.load. Safe: the host's duty. -/
  | loadTooLong
  /-- A second load, or a load after a cycle call (R254). Raised by State.load. Safe: the host's duty. -/
  | loadNotFirst
  deriving DecidableEq, Repr

/-- The non-fatal events of R227, sent to the log output of R90. Their text is unspecified (D19). -/
inductive LogEvent where
  | unmatchedOpcode (w : Word)
  | emptyStackReturn
  | sysCall (nnn : Addr)
  deriving DecidableEq, Repr

/-- What the host sends with one cycle call (R90): the keypad lines and the random byte. -/
structure CycleInput where
  keypad : Keypad
  rnd : Byte
  deriving DecidableEq, Repr

/-- The engine states of R36 and R103. They are derived from the flags (State.engine), not stored. -/
inductive Engine where
  | running
  | waitingForKey
  | singleStepPaused
  | faulted
  deriving DecidableEq, Repr

/-- The state (R20). -/
structure State where
  /-- MEM, 4096 bytes (R38, R50). -/
  mem : Memory
  /-- V0 to VF (R21). -/
  v : Vector Byte 16
  /-- I (R24). -/
  i : Word
  /-- The program counter (R26). -/
  pc : Word
  /-- STACK, 16 return-address slots (R30). -/
  stack : Vector Word 16
  /-- SP, entries in use, 0 to 16 (R30). -/
  sp : Fin 17
  /-- DT, the delay timer (R33). -/
  dt : Byte
  /-- ST, the sound timer (R33). -/
  st : Byte
  /-- FB (R34). -/
  fb : Framebuffer
  /-- LATCH, a keypress wait is pending (R35). -/
  latch : Bool
  /-- LATCH_DEST, the register the key goes to (R35). -/
  latchDest : Reg
  /-- PAUSED, the single-step pause (R36). -/
  paused : Bool
  /-- FAULT, none or the fatal reason (R37, R221). -/
  fault : Option Fault
  /-- The model's own: the parameters of R7, written by no step (log entry 1). -/
  params : Config.Params
  /-- The model's own: the host's requests not yet served, the next call's first (log entry 2). -/
  pending : List CycleInput
  /-- The model's own: how many cycle calls have had a step, the index of the free inputs (log entry 2). -/
  calls : Nat
  /-- The model's own: no load and no cycle call has been made yet (R254; log entry 6). -/
  loadOpen : Bool
  /-- The model's own: the log output of R90, newest event first (log entry 7). -/
  log : List LogEvent
  deriving DecidableEq, Repr

/-- The state after construction, the only reset (R45, R250): every element zero, false or none, and no font. -/
def State.reset : State where
  mem := []
  v := Vector.replicate 16 0
  i := 0
  pc := 0
  stack := Vector.replicate 16 0
  sp := 0
  dt := 0
  st := 0
  fb := Vector.replicate 32 (Vector.replicate 64 false)
  latch := false
  latchDest := 0
  paused := false
  fault := none
  params := Config.params
  pending := []
  calls := 0
  loadOpen := true
  log := []

/-- What a meaning, and a step, answers. -/
abbrev Answer := Host.Outcome State Fault Refusal

end Sys2Proof.Machine
end

