-- ==== Sys2Proof/Machine/Ops.lean ====
section
/-! DEFINITION. The shared operations: memory, the register file, the pc advance and the skip, the call stack, the log,
the framebuffer's pixels, and taking a fault (60_exceptions.md R229). No fault returns (R231), so nothing stands beside
it. -/

namespace Sys2Proof.Machine

/-! Memory (20_memory.md). -/

/-- What an address that no entry lists reads as: the construction value 0x00 (R20, R45, R51). -/
abbrev Memory.unlisted : Byte := 0

/-- The canonical form: addresses strictly rising, all below 4096 (R50), no entry equal to the unlisted value. -/
abbrev Memory.wf (m : Memory) : Prop :=
  m.Pairwise (fun c d => c.1 < d.1) ∧ ∀ c ∈ m, c.1 < 4096 ∧ c.2 ≠ Memory.unlisted

/-- MemRead(a, 1) (R10): the byte at address a; no rule reads at 4096 or above (log entry 12). -/
def Memory.read : Memory → Nat → Byte
  | [], _ => Memory.unlisted
  | (b, u) :: m, a => if a = b then u else Memory.read m a

/-- MemWrite(a, 1, v) (R10): the byte at address a becomes v; the canonical form is kept. -/
def Memory.write : Memory → Nat → Byte → Memory
  | [], a, v => if v = Memory.unlisted then [] else [(a, v)]
  | (b, u) :: m, a, v =>
    if a < b then (if v = Memory.unlisted then (b, u) :: m else (a, v) :: (b, u) :: m)
    else if a = b then (if v = Memory.unlisted then m else (a, v) :: m)
    else (b, u) :: Memory.write m a v

/-- n consecutive reads from address a upwards (R52). -/
def Memory.readBytes (m : Memory) (a : Nat) : Nat → List Byte
  | 0 => []
  | n + 1 => m.read a :: Memory.readBytes m (a + 1) n

/-- Consecutive writes from address a upwards, the first byte lowest (R52). -/
def Memory.writeBytes (m : Memory) (a : Nat) : List Byte → Memory
  | [] => m
  | b :: bs => Memory.writeBytes (m.write a b) (a + 1) bs

/-- R56's range check: the bytes a to a + k - 1, computed on naturals without wrapping, k at least 1. -/
abbrev InRange (a k : Nat) : Prop := a + k - 1 ≤ 4095

/-! Registers (R21). None is hard-wired. -/

/-- V[r]. -/
def State.getV (s : State) (r : Reg) : Byte := s.v[r.val]

/-- V[r] <- b. -/
def State.setV (s : State) (r : Reg) (b : Byte) : State := { s with v := s.v.set r.val b }

/-- Consecutive registers from index k upwards take the bytes in turn (R175); past VF nothing is written. -/
def writeRegs (v : Vector Byte 16) (k : Nat) : List Byte → Vector Byte 16
  | [] => v
  | b :: bs => writeRegs (v.setIfInBounds k b) (k + 1) bs

/-- The values of V0 to V[x], in order (R174). -/
def State.regsUpTo (s : State) (x : Reg) : List Byte := s.v.toList.take (x.val + 1)

/-! The program counter (R26, R99). -/

/-- Step 7, pc <- pc + 2, in 16 bits (R99; in no state a run reaches does it wrap, R29; log entry 16). -/
def State.advance (s : State) : State := { s with pc := s.pc + 2 }

/-- A skip: its own 2 when the condition holds, before step 7's 2 (R99, R124). -/
def State.skipIf (c : Bool) (s : State) : State := if c then { s with pc := s.pc + 2 } else s

/-- pc <- target, a redirect: step 7 leaves pc (R99). -/
def State.jumpTo (s : State) (target : Word) : State := { s with pc := target }

/-! The call stack (R30, R31). -/

/-- Push (R31): none when SP = 16, and then nothing is written. -/
def State.push (s : State) (a : Word) : Option State :=
  if h : s.sp.val < 16 then
    some { s with stack := s.stack.set s.sp.val a, sp := ⟨s.sp.val + 1, by omega⟩ }
  else none

/-- Pop (R31): none when SP = 0; else the top entry, whose slot keeps its value (R32). -/
def State.pop (s : State) : Option (Word × State) :=
  if h : 0 < s.sp.val then
    some (s.stack[s.sp.val - 1], { s with sp := ⟨s.sp.val - 1, by omega⟩ })
  else none

/-! The log output and faults. -/

/-- log(event) (R11, R227). -/
def State.logEvent (s : State) (e : LogEvent) : State := { s with log := e :: s.log }

/-- Taking a fault (R229): FAULT <- r, and nothing else: pc is not advanced, nothing is saved elsewhere, no handler
runs. What the cycle call did before it stays. The call's answer is a next state; the calls after it stop (DEDUCED, log
entry 3). -/
def State.raiseFault (s : State) (r : Fault) : State := { s with fault := some r }

/-- raise Fault(r) as the end of a meaning (R11): a next state with the fault recorded. -/
def raise (r : Fault) (s : State) : Answer := .next (s.raiseFault r)

/-- The fault's code (R221). -/
def Fault.code : Fault → Nat
  | .fetchOutOfRange _ => 1
  | .misalignedFetch _ => 2
  | .stackOverflow _ _ => 3
  | .memOutOfRange _ _ _ => 4
  | .keyIndexOutOfRange _ _ _ => 5

/-! The framebuffer's pixels (R34). -/

/-- FB[r][c]; false outside the 32 rows and 64 columns. -/
def Framebuffer.pixel (fb : Framebuffer) (r c : Nat) : Bool :=
  if h : r < 32 ∧ c < 64 then (fb[r]'h.1)[c]'h.2 else false

/-- FB[r][c] <- not FB[r][c]; nothing outside. -/
def Framebuffer.toggle (fb : Framebuffer) (r c : Nat) : Framebuffer :=
  if h : r < 32 ∧ c < 64 then fb.set r ((fb[r]'h.1).set c (!(fb[r]'h.1)[c]'h.2) h.2) h.1 else fb

/-- Every pixel false (R190). -/
def Framebuffer.blank : Framebuffer := Vector.replicate 32 (Vector.replicate 64 false)

/-! The inputs of the current cycle call (R39, R40, R105). -/

/-- The request this cycle call serves: the host's next pending one, or, where the state lists none, free values
(log entry 2). -/
def State.input (s : State) : CycleInput :=
  match s.pending with
  | [] => { keypad := Config.freeKeypad s.calls, rnd := Config.freeRnd s.calls }
  | c :: _ => c

/-- The state after the request is served. -/
def State.served (s : State) : State :=
  { s with pending := s.pending.tail, calls := s.calls + 1, loadOpen := false }

end Sys2Proof.Machine
end

