-- ==== Sys2Proof/Machine/Operands.lean ====
section
/-! DEFINITION. The operand forms of 30_encoding.md R72 and R73, the addressing of 43_index_memory.md R176, a sprite's
start position (44_display.md R193), and the key line a register selects (45_keypad_timers.md R202). -/

namespace Sys2Proof.Machine

/-- zext_16(nnn) (R72). -/
def zextAddr (nnn : Addr) : Word := nnn.setWidth 16

/-- zext_16(V[r]) (R171). -/
def State.zextV (s : State) (r : Reg) : Word := (s.getV r).setWidth 16

/-- The effective address of byte k of a data access: I + k on naturals (R176). -/
def State.dataAddr (s : State) (k : Nat) : Nat := s.i.toNat + k

/-- R56 for the k data bytes of an instruction: I to I + k - 1 lie inside memory. -/
abbrev State.dataInRange (s : State) (k : Nat) : Prop := InRange (s.dataAddr 0) k

/-- The decimal digits FX33 stores, hundreds first (R173). -/
def bcdDigits (v : Byte) : List Byte :=
  [BitVec.ofNat 8 (v.toNat / 100), BitVec.ofNat 8 (v.toNat / 10 % 10), BitVec.ofNat 8 (v.toNat % 10)]

/-- The font sprite address of a digit: V[x] × 5, the whole byte (R172). -/
def State.glyphAddr (s : State) (x : Reg) : Word := s.zextV x * 5

/-- A sprite's start column, V[x] mod 64 (R193). -/
def State.spriteCol (s : State) (x : Reg) : Nat := (s.getV x).toNat % 64

/-- A sprite's start row, V[y] mod SPRITE_Y_MODULUS (R193). -/
def State.spriteRow (s : State) (y : Reg) : Nat := (s.getV y).toNat % s.params.spriteYModulus.toNat

/-- keypad[V[x]] for SKP and SKNP: none when V[x] is above 15 (R202, R203). -/
def State.keyLine (s : State) (x : Reg) : Option Bool :=
  if h : (s.getV x).toNat < 16 then some (s.input.keypad[(s.getV x).toNat]) else none

end Sys2Proof.Machine
end

