-- ==== Sys2Proof/Machine/Flags.lean ====
section
/-! DEFINITION. The flag computations of 10_state.md R42 and the results they go with (42_alu.md R140, R148 to R152):
computed on naturals, then written to 8 bits. VF is the only flag. -/

namespace Sys2Proof.Machine

/-- A flag as VF holds it: 1 or 0. -/
def flagByte (b : Bool) : Byte := if b then 1 else 0

/-- The sum's carry: 1 if a + b > 255 (R148). -/
def carry (a b : Byte) : Bool := decide (a.toNat + b.toNat > 255)

/-- No borrow in a - b: 1 if a >= b (R149, R151). -/
def noBorrow (a b : Byte) : Bool := decide (a.toNat ≥ b.toNat)

/-- trunc_8(a + b) (R140, R148). -/
def sum8 (a b : Byte) : Byte := BitVec.ofNat 8 (a.toNat + b.toNat)

/-- trunc_8(a - b + 256) (R140, R149). -/
def diff8 (a b : Byte) : Byte := BitVec.ofNat 8 (a.toNat + 256 - b.toNat)

/-- v >> 1, logical (R150). -/
def shiftRight1 (v : Byte) : Byte := BitVec.ofNat 8 (v.toNat / 2)

/-- trunc_8(v << 1) (R152). -/
def shiftLeft1 (v : Byte) : Byte := BitVec.ofNat 8 (v.toNat * 2)

/-- v[0:0] (R150). -/
def bit0 (v : Byte) : Bool := v.getLsbD 0

/-- v[7:7] (R152). -/
def bit7 (v : Byte) : Bool := v.getLsbD 7

/-- WriteResultAndFlag (R141). For x = F the last of the two writes is all that is left, so the parameter is read only
there: for another x the two orders give one state. Obligations.ResultAndFlagAreTwoOrderedWrites states that this form
is the rule's two ordered writes. -/
def State.writeResultAndFlag (s : State) (x : Reg) (r f : Byte) : State :=
  if x = vf then
    s.setV vf (match s.params.vfDestOrder with
      | .flagLast => f
      | .resultLast => r)
  else (s.setV x r).setV vf f

end Sys2Proof.Machine
end

