-- ==== Sys2Proof/Machine/Alu.lean ====
section
/-! DEFINITION. 42_alu.md: register loads, arithmetic, logic, shifts and the random byte. All operands are read from
the state before the instruction (00_scope.md R11). -/

namespace Sys2Proof.Machine

/-- LD Vx, nn (R142). -/
def execLdImm (x : Reg) (nn : Byte) (s : State) : Answer := .next (s.setV x nn).advance

/-- ADD Vx, nn: wraps, no flag (R143). -/
def execAddImm (x : Reg) (nn : Byte) (s : State) : Answer := .next (s.setV x (sum8 (s.getV x) nn)).advance

/-- LD Vx, Vy (R144). -/
def execLdReg (x y : Reg) (s : State) : Answer := .next (s.setV x (s.getV y)).advance

/-- OR Vx, Vy (R145). -/
def execOr (x y : Reg) (s : State) : Answer := .next (s.setV x (s.getV x ||| s.getV y)).advance

/-- AND Vx, Vy (R146). -/
def execAnd (x y : Reg) (s : State) : Answer := .next (s.setV x (s.getV x &&& s.getV y)).advance

/-- XOR Vx, Vy (R147). -/
def execXor (x y : Reg) (s : State) : Answer := .next (s.setV x (s.getV x ^^^ s.getV y)).advance

/-- ADD Vx, Vy with carry to VF (R148). -/
def execAddReg (x y : Reg) (s : State) : Answer :=
  .next (s.writeResultAndFlag x (sum8 (s.getV x) (s.getV y)) (flagByte (carry (s.getV x) (s.getV y)))).advance

/-- SUB Vx, Vy with no-borrow to VF (R149). -/
def execSub (x y : Reg) (s : State) : Answer :=
  .next (s.writeResultAndFlag x (diff8 (s.getV x) (s.getV y)) (flagByte (noBorrow (s.getV x) (s.getV y)))).advance

/-- SHR Vx: the old bit 0 to VF (R150). -/
def execShr (x : Reg) (s : State) : Answer :=
  .next (s.writeResultAndFlag x (shiftRight1 (s.getV x)) (flagByte (bit0 (s.getV x)))).advance

/-- SUBN Vx, Vy: V[y] - V[x] with no-borrow to VF (R151). -/
def execSubn (x y : Reg) (s : State) : Answer :=
  .next (s.writeResultAndFlag x (diff8 (s.getV y) (s.getV x)) (flagByte (noBorrow (s.getV y) (s.getV x)))).advance

/-- SHL Vx: the old bit 7 to VF (R152). -/
def execShl (x : Reg) (s : State) : Answer :=
  .next (s.writeResultAndFlag x (shiftLeft1 (s.getV x)) (flagByte (bit7 (s.getV x)))).advance

/-- RND Vx, nn: this call's random byte, masked (R153). -/
def execRnd (x : Reg) (nn : Byte) (s : State) : Answer := .next (s.setV x (s.input.rnd &&& nn)).advance

end Sys2Proof.Machine
end

