-- ==== Sys2Proof/Machine/ControlFlow.lean ====
section
/-! DEFINITION. 41_control_flow.md: the legacy system call, the jumps, call and return, and the skips. -/

namespace Sys2Proof.Machine

/-- SYS nnn: a logged no-op (R120). -/
def execSys (nnn : Addr) (s : State) : Answer := .next (s.logEvent (.sysCall nnn)).advance

/-- JP nnn (R121). -/
def execJp (nnn : Addr) (s : State) : Answer := .next (s.jumpTo (zextAddr nnn))

/-- CALL nnn: push the CALL's own address, or StackOverflow with nothing written (R122, R224). The
word FAULT records is the instruction's own encoding (log entry 13). -/
def execCall (nnn : Addr) (s : State) : Answer :=
  match s.push s.pc with
  | some t => .next (t.jumpTo (zextAddr nnn))
  | none => raise (.stackOverflow s.pc (encode (.call nnn))) s

/-- RET: the popped address plus RET_RESUME_OFFSET; on an empty stack a log event and pc as it is (R123). -/
def execRet (s : State) : Answer :=
  match s.pop with
  | some (a, t) => .next (t.jumpTo (a + s.params.retResumeOffset.toWord))
  | none => .next (s.logEvent .emptyStackReturn)

/-- SE Vx, nn (R124). -/
def execSeImm (x : Reg) (nn : Byte) (s : State) : Answer := .next (s.skipIf (s.getV x == nn)).advance

/-- SNE Vx, nn (R125). -/
def execSneImm (x : Reg) (nn : Byte) (s : State) : Answer := .next (s.skipIf (s.getV x != nn)).advance

/-- SE Vx, Vy (R126). -/
def execSeReg (x y : Reg) (s : State) : Answer := .next (s.skipIf (s.getV x == s.getV y)).advance

/-- SNE Vx, Vy (R127). -/
def execSneReg (x y : Reg) (s : State) : Answer := .next (s.skipIf (s.getV x != s.getV y)).advance

/-- JP V0, nnn: always V0 (R128). -/
def execJpV0 (nnn : Addr) (s : State) : Answer := .next (s.jumpTo (zextAddr nnn + s.zextV 0))

end Sys2Proof.Machine
end

