-- ==== Sys2Proof/Machine/Display.lean ====
section
/-! DEFINITION. 44_display.md: clear screen and sprite draw, with the draw written as R191's loop over rows and
columns. -/

namespace Sys2Proof.Machine

/-- The draw in progress: the framebuffer, and c, whether a set pixel has been cleared (R191). -/
structure Canvas where
  fb : Framebuffer
  hit : Bool
  deriving DecidableEq, Repr

/-- A sprite's 1 bit at a position: clipped outside the framebuffer; else a collision if the pixel is set, and the
pixel is inverted (R191). -/
def plot (c : Canvas) (row col : Nat) : Canvas :=
  if row < 32 ∧ col < 64 then { fb := c.fb.toggle row col, hit := c.hit || c.fb.pixel row col } else c

/-- One sprite byte at columns from x0, bit 7 leftmost (R191, R192; PRESUMED, log entry 10): the first j columns of it. -/
def drawBits (c : Canvas) (b : Byte) (row x0 : Nat) : Nat → Canvas
  | 0 => c
  | j + 1 =>
    if b.getLsbD (7 - j) then plot (drawBits c b row x0 j) row (x0 + j) else drawBits c b row x0 j

/-- The sprite's bytes in turn, one row below the other (R191, R192). -/
def drawSprite (c : Canvas) (row x0 : Nat) : List Byte → Canvas
  | [] => c
  | b :: bs => drawSprite (drawBits c b row x0 8) (row + 1) x0 bs

/-- What DRW leaves on the framebuffer, and its collision flag (R191). -/
def State.drawn (s : State) (x y : Reg) (n : Height) : Canvas :=
  drawSprite { fb := s.fb, hit := false } (s.spriteRow y) (s.spriteCol x) (s.mem.readBytes (s.dataAddr 0) n.val)

/-- CLS (R190). -/
def execCls (s : State) : Answer := .next ({ s with fb := Framebuffer.blank } : State).advance

/-- DRW Vx, Vy, n: the n bytes at I, range-checked whole when n is at least 1; VF in every execution (R191). -/
def execDrw (x y : Reg) (n : Height) (s : State) : Answer :=
  if 1 ≤ n.val ∧ ¬ s.dataInRange n.val then raise (.memOutOfRange s.pc (encode (.drw x y n)) s.i) s
  else .next (({ s with fb := (s.drawn x y n).fb } : State).setV vf (flagByte (s.drawn x y n).hit)).advance

end Sys2Proof.Machine
end

