-- ==== Sys2Proof/Machine/IndexMemory.lean ====
section
/-! DEFINITION. 43_index_memory.md: the index register and the block transfers. The whole range is checked before any
byte moves (R56); I is never changed by an access (R176). -/

namespace Sys2Proof.Machine

/-- LD I, nnn (R170). -/
def execLdI (nnn : Addr) (s : State) : Answer := .next ({ s with i := zextAddr nnn } : State).advance

/-- ADD I, Vx: wraps at 16 bits, no flag (R171). -/
def execAddI (x : Reg) (s : State) : Answer := .next ({ s with i := s.i + s.zextV x } : State).advance

/-- LD F, Vx (R172). -/
def execLdF (x : Reg) (s : State) : Answer := .next ({ s with i := s.glyphAddr x } : State).advance

/-- LD B, Vx: three decimal digits at I, I + 1, I + 2 (R173). -/
def execLdB (x : Reg) (s : State) : Answer :=
  if s.dataInRange 3 then
    .next ({ s with mem := s.mem.writeBytes (s.dataAddr 0) (bcdDigits (s.getV x)) } : State).advance
  else raise (.memOutOfRange s.pc (encode (.ldB x)) s.i) s

/-- LD [I], Vx: V0 to V[x] to memory from I (R174). -/
def execStore (x : Reg) (s : State) : Answer :=
  if s.dataInRange (x.val + 1) then
    .next ({ s with mem := s.mem.writeBytes (s.dataAddr 0) (s.regsUpTo x) } : State).advance
  else raise (.memOutOfRange s.pc (encode (.store x)) s.i) s

/-- LD Vx, [I]: memory from I to V0 to V[x] (R175). -/
def execLoad (x : Reg) (s : State) : Answer :=
  if s.dataInRange (x.val + 1) then
    .next ({ s with v := writeRegs s.v 0 (s.mem.readBytes (s.dataAddr 0) (x.val + 1)) } : State).advance
  else raise (.memOutOfRange s.pc (encode (.load x)) s.i) s

end Sys2Proof.Machine
end

