-- ==== Sys2Proof/Machine/KeypadTimers.lean ====
section
/-! DEFINITION. 45_keypad_timers.md: the key skips, the keypress wait and the timer transfers. -/

namespace Sys2Proof.Machine

/-- SKP Vx (R202). -/
def execSkp (x : Reg) (s : State) : Answer :=
  match s.keyLine x with
  | some pressed => .next (s.skipIf pressed).advance
  | none => raise (.keyIndexOutOfRange s.pc (encode (.skp x)) (s.getV x)) s

/-- SKNP Vx (R203). -/
def execSknp (x : Reg) (s : State) : Answer :=
  match s.keyLine x with
  | some pressed => .next (s.skipIf (!pressed)).advance
  | none => raise (.keyIndexOutOfRange s.pc (encode (.sknp x)) (s.getV x)) s

/-- LD Vx, DT (R204). -/
def execLdFromDt (x : Reg) (s : State) : Answer := .next (s.setV x s.dt).advance

/-- LD Vx, K: sets the latch; pc moves past it now and V[x] is written at capture (R205). -/
def execLdK (x : Reg) (s : State) : Answer := .next ({ s with latch := true, latchDest := x } : State).advance

/-- LD DT, Vx (R206). -/
def execLdDt (x : Reg) (s : State) : Answer := .next ({ s with dt := s.getV x } : State).advance

/-- LD ST, Vx (R207). -/
def execLdSt (x : Reg) (s : State) : Answer := .next ({ s with st := s.getV x } : State).advance

end Sys2Proof.Machine
end

