-- ==== Sys2Proof/Machine/Cycle.lean ====
section
/-! DEFINITION. The fetch unit, the timer unit's tick and the cycle engine (40_fetch_cycle.md R91 to R103,
45_keypad_timers.md R200), and what a call answers the host (R100). -/

namespace Sys2Proof.Machine

/-- sat_dec (R200). -/
def satDec (t : Byte) : Byte := if t = 0 then 0 else t - 1

/-- Step 3: both timers (R95, R200). -/
def State.tickTimers (s : State) : State := { s with dt := satDec s.dt, st := satDec s.st }

/-- The lowest pressed line, min of the k with keypad[k] (R93). -/
def lowestPressed (kp : Keypad) : Option (Fin 16) := (List.finRange 16).find? (fun k => kp[k.val])

/-- Whether some line is pressed (R94). -/
def anyPressed (kp : Keypad) : Bool := (lowestPressed kp).isSome

/-- Step 1: the lowest pressed key, if there is one, goes to V[LATCH_DEST] and clears LATCH (R93). -/
def State.captureKey (s : State) : State :=
  match lowestPressed s.input.keypad with
  | some k => ({ s with latch := false } : State).setV s.latchDest (BitVec.ofNat 8 k.val)
  | none => s

/-- Step 4, the fetch: the word at pc, or the fault of its two checks, the range first (R96, R232). -/
def State.fetch (s : State) : Except Fault Word :=
  if s.pc.toNat > 4094 then .error (.fetchOutOfRange s.pc)
  else if s.pc.toNat % 2 = 1 ∧ s.params.oddPcFetch = .fault then .error (.misalignedFetch s.pc)
  else .ok (wordOfBytes (s.mem.read s.pc.toNat) (s.mem.read (s.pc.toNat + 1)))

/-- A word no pattern matches: a logged no-op, pc + 2 (R98). -/
def execUnmatched (w : Word) (s : State) : Answer := .next (s.logEvent (.unmatchedOpcode w)).advance

/-- Steps 5 and 6: decode the word and execute what it is (R97, R98). -/
def execWord (w : Word) (s : State) : Answer :=
  match decode w with
  | .instr i => exec i s
  | .unmatched u => execUnmatched u s

/-- PAUSED <- true at debug level 3 after an instruction that did not fault (R100, R229). -/
def State.pauseAfter (s : State) : State :=
  if s.fault = none ∧ s.params.debugLevel = 3 then { s with paused := true } else s

/-- Step 8: the pause of debug level 3, and the request is served (R100). -/
def endCall : Answer → Answer
  | .next s => .next s.pauseAfter.served
  | .fault r => .fault r
  | .refused r => .refused r

/-- PAUSED <- false, when a pressed line ends the single-step pause (R94). -/
def State.unpause (s : State) : State := { s with paused := false }

/-- Steps 3 to 8 (R102). -/
def runInstr (s : State) : Answer :=
  match s.tickTimers.fetch with
  | .error r => .next (s.tickTimers.raiseFault r).served
  | .ok w => endCall (execWord w s.tickTimers)

/-- The cycle call (R102): step 0, a recorded fault has no step; step 1, the keypress wait; step 2, the single-step
pause; then steps 3 to 8. -/
def cycle (s : State) : Answer :=
  match s.fault with
  | some r => .fault r
  | none =>
    if s.latch then .next s.captureKey.served
    else if s.paused then
      if anyPressed s.input.keypad then
        if s.params.singleStepFallthrough then runInstr s.unpause
        else .next s.unpause.served
      else .next s.served
    else runInstr s

/-- The engine state, derived from the flags (R36, R103). -/
def State.engine (s : State) : Engine :=
  match s.fault with
  | some _ => .faulted
  | none => if s.latch then .waitingForKey else if s.paused then .singleStepPaused else .running

/-- The cycle response (R90, R92, R100): the framebuffer as it stands after the call, or the fault reason. -/
def State.response (s : State) : Except Fault Framebuffer :=
  match s.fault with
  | some r => .error r
  | none => .ok s.fb

end Sys2Proof.Machine
end

