-- ==== Sys2Proof/Machine/Step.lean ====
section
/-! DEFINITION. One step of the machine is one cycle call (40_fetch_cycle.md R102), and the placing of one instruction
word where the next call fetches it. -/

namespace Sys2Proof.Machine

/-- One cycle call. -/
def step (s : State) : Host.Outcome State Fault Refusal := cycle s

/-- s with a table word stored where the next fetch reads it, high byte at pc, low byte at pc + 1 (R53, R96). Nothing
else changes; where pc lies above 4094 there is no place for it and s is left as it is (log entry 11). -/
def State.withFetchWord (s : State) (nbits w : Nat) : State :=
  let first : Word := BitVec.ofNat 16 (w % 2 ^ nbits)
  if s.pc.toNat ≤ 4094 then
    { s with mem := s.mem.writeBytes s.pc.toNat [highByte first, lowByte first] }
  else s

end Sys2Proof.Machine
end

