-- ==== Sys2Proof/Machine/Load.lean ====
section
/-! DEFINITION. The load, the host's one operation before the first cycle call (70_reset_and_hazards.md R252 to R254).
It is no step of the machine: the host applies it to the construction state (log entries 6 and 11). -/

namespace Sys2Proof.Machine

/-- load(bytes, length, start_offset) with FONT as an argument (R7, R38): refused when a precondition of R252 or R254
fails; else the first length bytes at start_offset, then the font at 0 to 79, then pc (R253). -/
def State.load (font : Config.Font) (bytes : List Byte) (length startOffset : Nat) (s : State) : Answer :=
  if s.loadOpen = false then .refused .loadNotFirst
  else if startOffset + length > 4096 then .refused .loadPastCapacity
  else if length > 3584 ∨ bytes.length < length then .refused .loadTooLong
  else
    .next { s with
      mem := (s.mem.writeBytes startOffset (bytes.take length)).writeBytes 0 font.toList
      pc := BitVec.ofNat 16 startOffset
      loadOpen := false }

end Sys2Proof.Machine
end

