-- ==== Sys2Proof/Safety.lean ====
section
/-! DEFINITION. The terms claims are stated in: a running machine, a safe state, the invariant every step keeps, the
writers the spec lists, the word a fetch reads, and relations between two states that differ in one respect. -/

namespace Sys2Proof.Machine

/-- The engine state Running (R36): the next call reaches step 3. -/
abbrev State.isRunning (s : State) : Prop := s.fault = none ∧ s.latch = false ∧ s.paused = false

/-- The next call reaches step 3 (R91, R94): it is in no wait, and if it is in the pause, a pressed line ends the pause
and SINGLE_STEP_FALLTHROUGH lets the call go on. -/
abbrev State.reachesStep3 (s : State) : Prop :=
  s.fault = none ∧ s.latch = false ∧
    (s.paused = true → (∃ k : Fin 16, s.input.keypad[k.val] = true) ∧ s.params.singleStepFallthrough = true)

/-- No fatal error has been recorded (R37). A safe run keeps this. -/
abbrev State.isSafe (s : State) : Prop := s.fault = none

/-- The fetch of R96 passes both its checks at this state's pc. -/
abbrev State.fetchOk (s : State) : Prop :=
  s.pc.toNat ≤ 4094 ∧ (s.pc.toNat % 2 = 0 ∨ s.params.oddPcFetch = .fetch)

/-- The two bytes at pc as the word the fetch reads, high byte first (R53). -/
def State.wordAtPc (s : State) : Word :=
  BitVec.ofNat 16 (256 * (s.mem.read s.pc.toNat).toNat + (s.mem.read (s.pc.toNat + 1)).toNat)

/-- The pc FAULT records (R221). -/
def Fault.pc : Fault → Word
  | .fetchOutOfRange p => p
  | .misalignedFetch p => p
  | .stackOverflow p _ => p
  | .memOutOfRange p _ _ => p
  | .keyIndexOutOfRange p _ _ => p

/-- What holds of every state a run reaches: memory in canonical form; PAUSED only at debug level 3 (R36); pc at most
0x10FE, so that it never wraps, and every return address in use at most 4094 (R29); FAULT names the pc it was raised
at (R230); and only a cycle call has raised it. -/
structure State.Inv (s : State) : Prop where
  memWf : s.mem.wf
  pausedLevel : s.paused = true → s.params.debugLevel = 3
  pcBound : s.pc.toNat ≤ 0x10FE
  returnBound : ∀ k, (h : k < s.sp.val) → (s.stack[k]'(by omega)).toNat ≤ 4094
  faultPc : ∀ r, s.fault = some r → r.pc = s.pc
  loadOpenSafe : s.loadOpen = true → s.fault = none

/-- The word number n is the instruction i's encoding. -/
abbrev EncodedAs (n : Nat) (i : Instr) : Prop := decode (BitVec.ofNat 16 n) = .instr i

/-- R23: the general registers an instruction writes when it executes. FX0A's is written later, at key capture. -/
def writesReg : Instr → Reg → Prop
  | .ldImm x _, r | .addImm x _, r | .ldReg x _, r | .or x _, r | .and x _, r | .xor x _, r => r = x
  | .rnd x _, r | .ldFromDt x, r => r = x
  | .addReg x _, r | .sub x _, r | .subn x _, r | .shr x _, r | .shl x _, r => r = x ∨ r = vf
  | .drw _ _ _, r => r = vf
  | .load x, r => r ≤ x
  | .cls, _ | .ret, _ | .sys _, _ | .jp _, _ | .call _, _ | .seImm _ _, _ | .sneImm _ _, _ | .seReg _ _, _ => False
  | .sneReg _ _, _ | .ldI _, _ | .jpV0 _, _ | .skp _, _ | .sknp _, _ | .ldK _, _ | .ldDt _, _ | .ldSt _, _ => False
  | .addI _, _ | .ldF _, _ | .ldB _, _ | .store _, _ => False

/-- R57: the number of bytes an instruction stores from I upwards; none stores anything else. -/
def storesBytes : Instr → Nat
  | .ldB _ => 3
  | .store x => x.val + 1
  | .cls | .ret | .sys _ | .jp _ | .call _ | .seImm _ _ | .sneImm _ _ | .seReg _ _ | .ldImm _ _ | .addImm _ _ => 0
  | .ldReg _ _ | .or _ _ | .and _ _ | .xor _ _ | .addReg _ _ | .sub _ _ | .shr _ _ | .subn _ _ | .shl _ _ => 0
  | .sneReg _ _ | .ldI _ | .jpV0 _ | .rnd _ _ | .drw _ _ _ | .skp _ | .sknp _ | .ldFromDt _ | .ldK _ => 0
  | .ldDt _ | .ldSt _ | .addI _ | .ldF _ | .load _ => 0

/-- R99: the redirecting operations are exactly JP, BNNN, CALL and RET. -/
def redirects : Instr → Bool
  | .jp _ | .jpV0 _ | .call _ | .ret => true
  | .cls | .sys _ | .seImm _ _ | .sneImm _ _ | .seReg _ _ | .ldImm _ _ | .addImm _ _ => false
  | .ldReg _ _ | .or _ _ | .and _ _ | .xor _ _ | .addReg _ _ | .sub _ _ | .shr _ _ | .subn _ _ | .shl _ _ => false
  | .sneReg _ _ | .ldI _ | .rnd _ _ | .drw _ _ _ | .skp _ | .sknp _ | .ldFromDt _ | .ldK _ => false
  | .ldDt _ | .ldSt _ | .addI _ | .ldF _ | .ldB _ | .store _ | .load _ => false

/-- R28: the condition of a skip holds, on V and this call's keypad (R124 to R127, R202, R203); no other instruction has
one. -/
def State.skipHolds (s : State) : Instr → Prop
  | .seImm x nn => s.getV x = nn
  | .sneImm x nn => s.getV x ≠ nn
  | .seReg x y => s.getV x = s.getV y
  | .sneReg x y => s.getV x ≠ s.getV y
  | .skp x => ∃ k : Fin 16, (s.getV x).toNat = k.val ∧ s.input.keypad[k.val] = true
  | .sknp x => ∃ k : Fin 16, (s.getV x).toNat = k.val ∧ s.input.keypad[k.val] = false
  | .cls | .ret | .sys _ | .jp _ | .call _ | .ldImm _ _ | .addImm _ _ | .ldReg _ _ | .or _ _ | .and _ _ => False
  | .xor _ _ | .addReg _ _ | .sub _ _ | .shr _ _ | .subn _ _ | .shl _ _ | .ldI _ | .jpV0 _ | .rnd _ _ => False
  | .drw _ _ _ | .ldFromDt _ | .ldK _ | .ldDt _ | .ldSt _ | .addI _ | .ldF _ | .ldB _ | .store _ | .load _ => False

/-- The pixel (row, col) is covered by a 1 bit of the sprite DXYN draws: its row r is the byte at I + r, drawn at row
V[y] mod SPRITE_Y_MODULUS + r, and bit 7 - j of it is at column V[x] mod 64 + j (R191, R192, R193). -/
def State.spriteCovers (s : State) (x y : Reg) (n : Height) (row col : Nat) : Prop :=
  ∃ r j, r < n.val ∧ j < 8 ∧ row = (s.getV y).toNat % s.params.spriteYModulus.toNat + r ∧
    col = (s.getV x).toNat % 64 + j ∧ (s.mem.read (s.i.toNat + r)).getLsbD (7 - j) = true

/-- Executing i answers a next state in which V[x] is b, pc has advanced, and nothing else has changed. -/
def SetsOnlyVx (i : Instr) (s : State) (x : Reg) (b : Byte) : Prop :=
  ∃ t, exec i s = .next t ∧ t.getV x = b ∧ (∀ r, r ≠ x → t.getV r = s.getV r) ∧ t.pc = s.pc + 2 ∧
    (∀ a, t.mem.read a = s.mem.read a) ∧ t = { s with v := t.v, pc := t.pc }

/-- Executing i answers a next state in which V[x] is the result and VF the flag, in the order VF_DEST_ORDER gives when
x = F (R141); pc has advanced, and nothing else has changed. -/
def SetsResultAndFlag (i : Instr) (s : State) (x : Reg) (result flag : Byte) : Prop :=
  ∃ t, exec i s = .next t ∧ (x ≠ vf → t.getV x = result ∧ t.getV vf = flag) ∧
    (x = vf → s.params.vfDestOrder = .flagLast → t.getV vf = flag) ∧
    (x = vf → s.params.vfDestOrder = .resultLast → t.getV vf = result) ∧
    (∀ r, r ≠ x → r ≠ vf → t.getV r = s.getV r) ∧ t.pc = s.pc + 2 ∧
    (∀ a, t.mem.read a = s.mem.read a) ∧ t = { s with v := t.v, pc := t.pc }

/-- Executing i faults: FAULT is r and nothing else has changed (R229). -/
def Faults (i : Instr) (s : State) (r : Fault) : Prop := exec i s = .next { s with fault := some r }

/-- A step's answer with its next state, if it is one, passed through f. -/
def mapNext (f : State → State) : Answer → Answer
  | .next s => .next (f s)
  | .fault r => .fault r
  | .refused r => .refused r

/-- The same state at another debug level. -/
def State.atLevel (s : State) (d : Config.DebugLevel) : State := { s with params := { s.params with debugLevel := d } }

/-- The same state with another request for the current call. -/
def State.withInput (s : State) (c : CycleInput) : State := { s with pending := c :: s.pending.tail }

/-- Two states that agree on everything but stack slots no longer in use (R32). -/
def agreeButStale (s t : State) : Prop :=
  t = { s with stack := t.stack } ∧ ∀ k, (h : k < s.sp.val) → s.stack[k]'(by omega) = t.stack[k]'(by omega)

/-- Two answers of the same kind whose next states are related by R. -/
def answersAgree (R : State → State → Prop) : Answer → Answer → Prop
  | .next s, .next t => R s t
  | .fault a, .fault b => a = b
  | .refused a, .refused b => a = b
  | .next _, .fault _ | .next _, .refused _ | .fault _, .next _ => False
  | .fault _, .refused _ | .refused _, .next _ | .refused _, .fault _ => False

end Sys2Proof.Machine
end

