-- ==== Sys2Proof/Certificates/Slice0/Obligations.lean ====
section
/-! DEFINITION. The statements for the provers, from the numbered rules of spec/. Where a statement's Lean quantifies
over every state it quantifies over every value of the parameters of 00_scope.md R7 and every input of R39 and R40. EncodedAs
states an instruction's word: the bit patterns are the spec's own decision D2 (log entry 8), also where the rest of a
statement is the source's. The fields params, pending, calls, loadOpen and log are the model's own (log entries 1, 2, 6
and 7): a clause about them is the model's. -/

open Sys2Proof Sys2Proof.Machine

/-! Encoding and decoding (30_encoding.md). -/

/-- Decode and encode agree: the bytes of a well-formed instruction decode to it and leave the rest of the list. The
bit patterns are the spec's decisions D2 and D8 (log entry 8). -/
def Obligations.DecodeOfEncodedBytesIsInstr : Prop :=
  ∀ (i : Instr) (rest : List Byte), i.wf = true → decodeBytes (encodeBytes i ++ rest) = .ok (i, rest)

/-- Each word has one meaning: the instruction a word decodes to is well formed and encodes to that word. The bit
patterns are the spec's decisions D2 and D8 (log entry 8). -/
def Obligations.EncodeOfDecodedIsWord : Prop :=
  ∀ (w : Word) (i : Instr), decode w = .instr i → i.wf = true ∧ encode i = w

/-- R74, R70, R75: the complete opcode map, every pattern's match condition on the number of the word (the spec's
decisions D2 and D8, log entry 8). -/
def Obligations.OpcodeMapDecodesEveryPattern : Prop :=
  ∀ (w : Word) (op n nn : Nat) (x y : Reg) (nnn : Addr) (imm : Byte) (h : Height),
    op = w.toNat / 4096 → x.val = w.toNat / 256 % 16 → y.val = w.toNat / 16 % 16 → n = w.toNat % 16 → h.val = n →
    nn = w.toNat % 256 → imm.toNat = nn → nnn.toNat = w.toNat % 4096 →
    (w.toNat = 0x00E0 → decode w = .instr .cls) ∧
    (w.toNat = 0x00EE → decode w = .instr .ret) ∧
    (op = 0x0 → w.toNat ≠ 0x00E0 → w.toNat ≠ 0x00EE → decode w = .instr (.sys nnn)) ∧
    (op = 0x1 → decode w = .instr (.jp nnn)) ∧
    (op = 0x2 → decode w = .instr (.call nnn)) ∧
    (op = 0x3 → decode w = .instr (.seImm x imm)) ∧
    (op = 0x4 → decode w = .instr (.sneImm x imm)) ∧
    (op = 0x5 → n = 0x0 → decode w = .instr (.seReg x y)) ∧
    (op = 0x6 → decode w = .instr (.ldImm x imm)) ∧
    (op = 0x7 → decode w = .instr (.addImm x imm)) ∧
    (op = 0x8 → n = 0x0 → decode w = .instr (.ldReg x y)) ∧
    (op = 0x8 → n = 0x1 → decode w = .instr (.or x y)) ∧
    (op = 0x8 → n = 0x2 → decode w = .instr (.and x y)) ∧
    (op = 0x8 → n = 0x3 → decode w = .instr (.xor x y)) ∧
    (op = 0x8 → n = 0x4 → decode w = .instr (.addReg x y)) ∧
    (op = 0x8 → n = 0x5 → decode w = .instr (.sub x y)) ∧
    (op = 0x8 → n = 0x6 → decode w = .instr (.shr x y)) ∧
    (op = 0x8 → n = 0x7 → decode w = .instr (.subn x y)) ∧
    (op = 0x8 → n = 0xE → decode w = .instr (.shl x y)) ∧
    (op = 0x9 → n = 0x0 → decode w = .instr (.sneReg x y)) ∧
    (op = 0xA → decode w = .instr (.ldI nnn)) ∧
    (op = 0xB → decode w = .instr (.jpV0 nnn)) ∧
    (op = 0xC → decode w = .instr (.rnd x imm)) ∧
    (op = 0xD → decode w = .instr (.drw x y h)) ∧
    (op = 0xE → nn = 0x9E → decode w = .instr (.skp x)) ∧
    (op = 0xE → nn = 0xA1 → decode w = .instr (.sknp x)) ∧
    (op = 0xF → nn = 0x07 → decode w = .instr (.ldFromDt x)) ∧
    (op = 0xF → nn = 0x0A → decode w = .instr (.ldK x)) ∧
    (op = 0xF → nn = 0x15 → decode w = .instr (.ldDt x)) ∧
    (op = 0xF → nn = 0x18 → decode w = .instr (.ldSt x)) ∧
    (op = 0xF → nn = 0x1E → decode w = .instr (.addI x)) ∧
    (op = 0xF → nn = 0x29 → decode w = .instr (.ldF x)) ∧
    (op = 0xF → nn = 0x33 → decode w = .instr (.ldB x)) ∧
    (op = 0xF → nn = 0x55 → decode w = .instr (.store x)) ∧
    (op = 0xF → nn = 0x65 → decode w = .instr (.load x))

/-- R76, R77: the unmatched words are exactly those of the five groups, and UNMATCHED carries the word (the spec's
decisions D2 and D8, log entry 8). -/
def Obligations.UnmatchedWordsAreExactlyTheFiveGroups : Prop :=
  ∀ (w u : Word), decode w = .unmatched u ↔
    u = w ∧
    ((w.toNat / 4096 = 0x5 ∧ w.toNat % 16 ≠ 0) ∨
     (w.toNat / 4096 = 0x8 ∧ w.toNat % 16 ∈ [0x8, 0x9, 0xA, 0xB, 0xC, 0xD, 0xF]) ∨
     (w.toNat / 4096 = 0x9 ∧ w.toNat % 16 ≠ 0) ∨
     (w.toNat / 4096 = 0xE ∧ w.toNat % 256 ∉ [0x9E, 0xA1]) ∨
     (w.toNat / 4096 = 0xF ∧ w.toNat % 256 ∉ [0x07, 0x0A, 0x15, 0x18, 0x1E, 0x29, 0x33, 0x55, 0x65]))

/-- Every word that decodes to an instruction has the fixed bits of that instruction's row of opcode_table.json (the
spec's decision D2, log entry 8). -/
def Obligations.DecodedWordMatchesItsTableRow : Prop :=
  ∀ (w : Word) (i : Instr), decode w = .instr i → w &&& tableMask i = tableMatch i

/-- The decoder vectors of 95_test_vectors.md (a sanity statement; the bit patterns are the spec's decisions D2 and
D8, log entry 8). -/
def Obligations.DecoderVectorsOfTheSpec : Prop :=
  decode 0x00E0 = .instr .cls ∧ decode 0x00EE = .instr .ret ∧ decode 0x00E1 = .instr (.sys 0x0E1) ∧
  decode 0x0000 = .instr (.sys 0x000) ∧ decode 0x1ABC = .instr (.jp 0xABC) ∧
  decode 0x5AB0 = .instr (.seReg 0xA 0xB) ∧ decode 0x5AB1 = .unmatched 0x5AB1 ∧
  decode 0x8AB6 = .instr (.shr 0xA 0xB) ∧ decode 0x8AB8 = .unmatched 0x8AB8 ∧ decode 0x800F = .unmatched 0x800F ∧
  decode 0x9120 = .instr (.sneReg 1 2) ∧ decode 0x912F = .unmatched 0x912F ∧ decode 0xB123 = .instr (.jpV0 0x123) ∧
  decode 0xD12F = .instr (.drw 1 2 15) ∧ decode 0xE19E = .instr (.skp 1) ∧ decode 0xE19F = .unmatched 0xE19F ∧
  decode 0xF000 = .unmatched 0xF000 ∧ decode 0xF165 = .instr (.load 1) ∧ decode 0xFF0A = .instr (.ldK 0xF)

/-! Fetch unit and cycle engine (40_fetch_cycle.md). -/

/-- A step runs the decoded instruction: in Running, with the fetch's checks passed and the word at pc decoding to i,
the step is exec i of the state after the timer tick (R102), followed by the pause of debug level 3, which is the
spec's decision D17 (R100, log entry 15), and the serving of the host's request, which is the model's own bookkeeping
(log entry 2). The fetch's check of an odd pc is its decision D4 (log entry 14). The call that goes on out of the
pause is SingleStepPauseEndsOnAnyKey. -/
def Obligations.StepRunsTheDecodedInstruction : Prop :=
  ∀ (s t : State) (i : Instr), s.isRunning → s.fetchOk → decode s.wordAtPc = .instr i →
    exec i s.tickTimers = .next t →
    step s = .next (if t.fault = none ∧ t.params.debugLevel = 3 then { t with paused := true } else t).served

/-- R98: dispatch executes the selected operation; an unmatched word is a logged no-op, and pc advances by 2. The log
is the model's own field, which R98's log(UnmatchedOpcode(w)) writes (R227, the spec's decision D19, log entry 7,
DESIGN CHOICE); no element of the spec's state but pc changes. -/
def Obligations.DispatchExecutesOrLogsUnmatched : Prop :=
  ∀ (s : State) (w : Word),
    (∀ i, decode w = .instr i → execWord w s = exec i s) ∧
    (∀ u, decode w = .unmatched u → u = w ∧
      execWord w s = .next { s with log := .unmatchedOpcode w :: s.log, pc := s.pc + 2 })

/-- R98, R77: in Running, a call that fetches a word no pattern matches logs it, ticks the timers, advances pc by 2,
sets PAUSED exactly at debug level 3 (R100, the spec's decision D17, log entry 15), and changes nothing else but the
served request (the model's, log entry 2); the log is the model's field too (R227, the spec's decision D19, log entry
7). The fetch's check of an odd pc is the spec's decision D4 (log entry 14). -/
def Obligations.StepOnUnmatchedWordIsALoggedNoOp : Prop :=
  ∀ (s : State) (u : Word), s.isRunning → s.fetchOk → decode s.wordAtPc = .unmatched u →
    ∃ t, step s = .next t ∧ t.log = .unmatchedOpcode s.wordAtPc :: s.log ∧ t.pc = s.pc + 2 ∧
      t.dt.toNat = s.dt.toNat - 1 ∧ t.st.toNat = s.st.toNat - 1 ∧ (t.paused = true ↔ s.params.debugLevel = 3) ∧
      (∀ a, t.mem.read a = s.mem.read a) ∧
      t = ({ s with log := t.log, pc := t.pc, dt := t.dt, st := t.st, paused := t.paused } : State).served

/-- R92: when FAULT is set a cycle call has no step, and the response is the recorded reason, whatever LATCH and
PAUSED hold (the spec's decision D18, log entry 15). That the step answers it as Host.Outcome.fault is log entry 3. -/
def Obligations.FaultedCoreHasNoStep : Prop :=
  ∀ (s : State) (r : Fault), s.fault = some r → step s = .fault r ∧ s.response = .error r

/-- R93: with LATCH set, the lowest pressed line's index goes to V[LATCH_DEST] and LATCH clears; with none pressed
nothing changes; neither call ticks the timers, fetches or moves pc; and both answer the unchanged framebuffer. That
the level of a line counts, not its transition, is the spec's decision D16 (log entry 15). -/
def Obligations.KeypressWaitCapturesLowestKey : Prop :=
  ∀ (s : State), s.fault = none → s.latch = true →
    (∀ k : Fin 16, s.input.keypad[k.val] = true → (∀ j : Fin 16, j < k → s.input.keypad[j.val] = false) →
      ∃ t : State, step s = .next t.served ∧ (t.getV s.latchDest).toNat = k.val ∧
        (∀ r, r ≠ s.latchDest → t.getV r = s.getV r) ∧ t = { s with v := t.v, latch := false } ∧
        t.served.response = .ok s.fb) ∧
    ((∀ k : Fin 16, s.input.keypad[k.val] = false) → step s = .next s.served ∧ s.served.response = .ok s.fb)

/-- R94: with PAUSED set and no line pressed nothing changes; a pressed line clears the pause, and the call then goes
on to step 3 exactly when SINGLE_STEP_FALLTHROUGH is true. That this parameter is open, both its values stated, is the
spec's decision D17 (log entry 5). -/
def Obligations.SingleStepPauseEndsOnAnyKey : Prop :=
  ∀ (s : State), s.fault = none → s.latch = false → s.paused = true →
    ((∀ k : Fin 16, s.input.keypad[k.val] = false) → step s = .next s.served) ∧
    (∀ k : Fin 16, s.input.keypad[k.val] = true →
      (s.params.singleStepFallthrough = false → step s = .next ({ s with paused := false } : State).served) ∧
      (s.params.singleStepFallthrough = true → step s = step { s with paused := false }))

/-- R95, R200: a call that reaches step 3 decrements both timers once, saturating at zero, before its instruction
runs, and keeps the decrement when the fetch or the instruction faults; FX07 then reads the decremented value (R204,
an inference the spec marks derived), and FX15 and FX18 overwrite theirs (R206, R207). A call that ends in step 1 or 2
leaves both. Which calls reach step 3 out of the pause is R94 with the spec's decision D17 (log entry 5); the fetch's
check of an odd pc is its decision D4 (log entry 14). -/
def Obligations.TimersTickOncePerUnblockedCall : Prop :=
  ∀ (s t : State), step s = .next t →
    (s.reachesStep3 →
      ((¬ s.fetchOk ∨ ∀ x, decode s.wordAtPc ≠ .instr (.ldDt x)) → t.dt.toNat = s.dt.toNat - 1) ∧
      ((¬ s.fetchOk ∨ ∀ x, decode s.wordAtPc ≠ .instr (.ldSt x)) → t.st.toNat = s.st.toNat - 1) ∧
      (s.fetchOk → ∀ x, (decode s.wordAtPc = .instr (.ldFromDt x) → (t.getV x).toNat = s.dt.toNat - 1) ∧
        (decode s.wordAtPc = .instr (.ldDt x) → t.dt = s.getV x) ∧
        (decode s.wordAtPc = .instr (.ldSt x) → t.st = s.getV x))) ∧
    (¬ s.reachesStep3 → t.dt = s.dt ∧ t.st = s.st)

/-- R96: the fetch's range check, then its alignment check, then the two bytes at pc, high byte first; it writes no
state (it answers a word or a fault, no state). Both values of ODD_PC_FETCH, the spec's decision D4
(log entry 14), are stated; that the range comes first, at pc 4095, is its decision D33 (log entry 15). -/
def Obligations.FetchChecksThenReadsBigEndian : Prop :=
  ∀ (s : State),
    (s.pc.toNat > 4094 → s.fetch = .error (.fetchOutOfRange s.pc)) ∧
    (s.pc.toNat ≤ 4094 → s.pc.toNat % 2 = 1 → s.params.oddPcFetch = .fault →
      s.fetch = .error (.misalignedFetch s.pc)) ∧
    (s.pc.toNat ≤ 4094 → (s.pc.toNat % 2 = 0 ∨ s.params.oddPcFetch = .fetch) →
      ∃ w : Word, s.fetch = .ok w ∧
        w.toNat = 256 * (s.mem.read s.pc.toNat).toNat + (s.mem.read (s.pc.toNat + 1)).toNat)

/-- R100: at debug level 3 a call that executed an instruction without a fault leaves PAUSED set, at another level a
call that reaches step 3 leaves it clear; the response of a call that does not fault is the framebuffer at its end,
which a call that ends in step 1 or 2 has not changed. When PAUSED is set is the spec's decision D17 (log entries 5
and 15), and that a fault is the response its decision D18 (log entry 15). -/
def Obligations.PauseAndResponseAtStepEight : Prop :=
  ∀ (s t : State), step s = .next t →
    (t.fault = none → t.response = .ok t.fb) ∧ (∀ r, t.fault = some r → t.response = .error r) ∧
    (s.reachesStep3 → (t.paused = true ↔ t.fault = none ∧ s.params.debugLevel = 3)) ∧
    (¬ s.reachesStep3 → t.fb = s.fb ∧ (t.paused = true → s.paused = true))

/-- R103 (marked derived): the engine's state transitions, row by row; where the pause ends and
SINGLE_STEP_FALLTHROUGH is true the call is the Running call from the unpaused state, and in Faulted there is no step.
The effect FAULT <- reason is stated for the fetch, with the reasons of R221 (codes 1 and 2); an instruction's reason
is FaultsArePrecise. The rows rest on decisions of the spec: FX0A moves pc at once (D15), a line's level ends the wait
(D16), PAUSED after every instruction at level 3 (D17) and no step after a fault (D18), all in log entry 15; the open
fall-through is D17 (log entry 5), the fault at an odd pc D4 (log entry 14), the range fault first D33 (log entry 15).
-/
def Obligations.EngineStateTransitions : Prop :=
  (∀ (s : State), s.engine = .faulted → ∃ r, s.fault = some r ∧ step s = .fault r) ∧
  ∀ (s t : State), step s = .next t →
    (s.engine = .waitingForKey → (∀ k : Fin 16, s.input.keypad[k.val] = false) → t.engine = .waitingForKey) ∧
    (s.engine = .waitingForKey → (∃ k : Fin 16, s.input.keypad[k.val] = true) →
      t.engine = if s.paused then .singleStepPaused else .running) ∧
    (s.engine = .singleStepPaused → (∀ k : Fin 16, s.input.keypad[k.val] = false) → t.engine = .singleStepPaused) ∧
    (s.engine = .singleStepPaused → (∃ k : Fin 16, s.input.keypad[k.val] = true) →
      s.params.singleStepFallthrough = false → t.engine = .running) ∧
    (s.engine = .singleStepPaused → (∃ k : Fin 16, s.input.keypad[k.val] = true) →
      s.params.singleStepFallthrough = true → s.unpause.engine = .running ∧ step s.unpause = .next t) ∧
    (s.engine = .running → ¬ s.fetchOk → t.engine = .faulted) ∧
    (s.engine = .running → s.pc.toNat > 4094 → t.fault = some (.fetchOutOfRange s.pc)) ∧
    (s.engine = .running → s.pc.toNat ≤ 4094 → s.pc.toNat % 2 = 1 → s.params.oddPcFetch = .fault →
      t.fault = some (.misalignedFetch s.pc)) ∧
    (s.engine = .running → s.fetchOk → ∀ x, decode s.wordAtPc = .instr (.ldK x) →
      t.engine = .waitingForKey ∧ t.latchDest = x ∧ t.pc = s.pc + 2 ∧ (t.paused = true ↔ s.params.debugLevel = 3)) ∧
    (s.engine = .running → s.fetchOk → (∀ x, decode s.wordAtPc ≠ .instr (.ldK x)) →
      t.engine = if t.fault ≠ none then .faulted else if s.params.debugLevel = 3 then .singleStepPaused else .running)

/-- R107, R41: debug levels 0, 1 and 2 give the same step, up to the level itself (the spec's decision D32, log entry
15). -/
def Obligations.DebugLevelsBelowThreeGiveOneStep : Prop :=
  ∀ (s : State) (d e : Config.DebugLevel), d ≠ 3 → e ≠ 3 →
    step (s.atLevel e) = mapNext (fun t => t.atLevel e) (step (s.atLevel d))

/-- R41: the parameters do not change between cycle calls. -/
def Obligations.StepKeepsTheParameters : Prop :=
  ∀ (s t : State), step s = .next t → t.params = s.params

/-- R40, R39, R236: only CXNN reads the random byte of a call; and in Running only EX9E and EXA1 read its keypad. One
keypad and one free random byte per call are the spec's decisions D29 (log entry 15) and D22; the request is the
model's field pending (log entry 2). -/
def Obligations.CycleInputReadOnlyByItsReaders : Prop :=
  (∀ (s : State) (c d : CycleInput), c.keypad = d.keypad → (∀ x nn, decode s.wordAtPc ≠ .instr (.rnd x nn)) →
    step (s.withInput c) = step (s.withInput d)) ∧
  (∀ (s : State) (c d : CycleInput), s.isRunning → c.rnd = d.rnd →
    (∀ x, decode s.wordAtPc ≠ .instr (.skp x)) → (∀ x, decode s.wordAtPc ≠ .instr (.sknp x)) →
    step (s.withInput c) = step (s.withInput d))

/-- R32: no step observes a stack slot that is not in use. Two states that agree but for such slots step alike and go
on agreeing. That a popped slot keeps its value is the spec's decision D24 (log entry 15). -/
def Obligations.StaleStackSlotsAreUnobservable : Prop :=
  ∀ (s t : State), agreeButStale s t → answersAgree agreeButStale (step s) (step t)

/-! The state and its writers (10_state.md). -/

/-- R250: after construction every element is zero, false or none, and the engine is in Running. -/
def Obligations.ResetIsTheConstructionState : Prop :=
  (∀ a, State.reset.mem.read a = 0) ∧ (∀ r, State.reset.getV r = 0) ∧ State.reset.i = 0 ∧ State.reset.pc = 0 ∧
  (∀ k, (h : k < 16) → State.reset.stack[k] = 0) ∧ State.reset.sp = 0 ∧ State.reset.dt = 0 ∧ State.reset.st = 0 ∧
  (∀ r c, State.reset.fb.pixel r c = false) ∧ State.reset.latch = false ∧ State.reset.latchDest = 0 ∧
  State.reset.paused = false ∧ State.reset.fault = none ∧ State.reset.engine = .running

/-- R21: every general register is readable and writable, none is hardwired, and none is another's bank, window or
alias. A byte that LD Vx, nn writes to any register stays there alone, and LD Vx, Vy reads it back into any register.
-/
def Obligations.EveryRegisterIsReadableAndWritable : Prop :=
  ∀ (s : State) (r x : Reg) (b : Byte), ∃ t u, exec (.ldImm r b) s = .next t ∧ t.getV r = b ∧
    (∀ q, q ≠ r → t.getV q = s.getV q) ∧ exec (.ldReg x r) t = .next u ∧ u.getV x = b ∧
    (∀ q, q ≠ x → u.getV q = t.getV q)

/-- The model's state invariant State.Inv holds at reset (R250). -/
def Obligations.ResetMeetsTheStateInvariant : Prop := State.reset.Inv

/-- Every step keeps the invariant: memory's canonical form (the model's own, log entry 12), PAUSED only at debug
level 3 (R36, the spec's decision D17, log entry 15), pc and the return addresses bounded (R29, marked derived; both
values of RET_RESUME_OFFSET, D5, log entry 14), FAULT naming the pc (R230, marked derived). -/
def Obligations.StepKeepsTheStateInvariant : Prop :=
  ∀ (s t : State), s.Inv → step s = .next t → t.Inv

/-- The load keeps the invariant; which loads are refused and the order of its writes are the spec's decision D20 (log
entry 15). -/
def Obligations.LoadKeepsTheStateInvariant : Prop :=
  ∀ (font : Config.Font) (bytes : List Byte) (length start : Nat) (s t : State), s.Inv →
    s.load font bytes length start = .next t → t.Inv

/-- R23: an instruction changes no general register but those it is listed to write (the spec marks the list derived).
That OR, AND, XOR and ADD I leave VF is the spec's decision D34 (log entry 15). -/
def Obligations.RegistersChangedOnlyByTheirWriters : Prop :=
  ∀ (i : Instr) (s t : State) (r : Reg), exec i s = .next t → t.getV r ≠ s.getV r → writesReg i r

/-- R24, R32, R33, R34, R35, R43: I, the stack and SP, the timers, the framebuffer, the latch and the log change only
by their writers, and no instruction writes PAUSED or the parameters. That FX55 and FX65 leave I is the spec's
decision D9, and that RET leaves the popped slot its decision D24 (log entry 15); R43 is marked derived, and the log
is the model's field (log entry 7). -/
def Obligations.StateElementsChangedOnlyByTheirWriters : Prop :=
  ∀ (i : Instr) (s t : State), exec i s = .next t →
    (t.i ≠ s.i → (∃ nnn, i = .ldI nnn) ∨ (∃ x, i = .addI x) ∨ (∃ x, i = .ldF x)) ∧
    (t.sp ≠ s.sp → (∃ nnn, i = .call nnn) ∨ i = .ret) ∧
    (t.stack ≠ s.stack → ∃ nnn, i = .call nnn) ∧
    (t.dt ≠ s.dt → ∃ x, i = .ldDt x) ∧
    (t.st ≠ s.st → ∃ x, i = .ldSt x) ∧
    (t.fb ≠ s.fb → i = .cls ∨ ∃ x y n, i = .drw x y n) ∧
    (t.latch ≠ s.latch → t.latch = true ∧ ∃ x, i = .ldK x) ∧
    (t.latchDest ≠ s.latchDest → ∃ x, i = .ldK x) ∧
    (t.log ≠ s.log → (∃ nnn, i = .sys nnn) ∨ (i = .ret ∧ s.sp = 0)) ∧
    t.paused = s.paused ∧ t.params = s.params ∧ t.pending = s.pending ∧ t.calls = s.calls ∧ t.loadOpen = s.loadOpen

/-- R57, R58: an instruction changes no byte of memory but the ones it stores: I to I + 2 for FX33, I to I + x for
FX55, none for any other. The addresses are computed without a 16-bit wrap (R56, the spec's decision D12, log entry
15). -/
def Obligations.MemoryChangedOnlyWhereStored : Prop :=
  ∀ (i : Instr) (s t : State) (a : Nat), exec i s = .next t →
    ¬ (s.i.toNat ≤ a ∧ a < s.i.toNat + storesBytes i) → t.mem.read a = s.mem.read a

/-- R28 (marked derived), R99: an instruction that does not fault and is no redirect moves pc by 4 when it is a skip
whose condition holds, and by 2 otherwise; an instruction that faults leaves pc (R229). That FX0A moves pc in its own
call is the spec's decision D15, that SKP and SKNP fault above 15 its D11 (log entry 15); the 16-bit sum at a pc no
run reaches is log entry 16. -/
def Obligations.PcAdvancesUnlessRedirected : Prop :=
  ∀ (i : Instr) (s t : State), s.fault = none → exec i s = .next t →
    (t.fault ≠ none → t.pc = s.pc) ∧
    (t.fault = none → redirects i = false → s.skipHolds i → t.pc = s.pc + 4) ∧
    (t.fault = none → redirects i = false → ¬ s.skipHolds i → t.pc = s.pc + 2)

/-- R31, R30: the two stack primitives. A push at SP = 16 answers none and writes nothing; that CALL then raises
StackOverflow is CallPushesItsOwnAddress, and that no other instruction writes the stack is
StateElementsChangedOnlyByTheirWriters. That a popped slot keeps its value is the spec's decision D24 (R32, log entry
15). -/
def Obligations.PushAndPopAreTheStackPrimitives : Prop :=
  ∀ (s : State) (a : Word),
    (s.sp.val = 16 → s.push a = none) ∧
    (s.sp.val < 16 → ∃ t, s.push a = some t ∧ t.sp.val = s.sp.val + 1 ∧
      (∀ k, (h : k < 16) → t.stack[k] = if k = s.sp.val then a else s.stack[k]) ∧
      t = { s with stack := t.stack, sp := t.sp }) ∧
    (s.sp.val = 0 → s.pop = none) ∧
    (0 < s.sp.val → ∃ t, s.pop = some (s.stack[s.sp.val - 1]'(by omega), t) ∧ t.sp.val = s.sp.val - 1 ∧
      t = { s with sp := t.sp })

/-- Memory in canonical form is determined by its bytes: equal memories are equal data. The form is the model's own
(log entry 12). -/
def Obligations.CanonicalMemoryIsExtensional : Prop :=
  ∀ (m m' : Memory), m.wf → m'.wf → (∀ a, m.read a = m'.read a) → m = m'

/-! Faults (60_exceptions.md). -/

/-- R230, R229: faults are precise, and each is raised for its cause. After a call that faults, the state is the one
before it plus one timer decrement (and the pause that was cleared on the way, and the served request), FAULT is set,
and it names the faulting pc. The reason (R221, R222, R223, R232) is FetchOutOfRange for a pc above 4094,
MisalignedFetch for an odd pc up to 4094 with ODD_PC_FETCH = fault, and otherwise the one that exec of the fetched
instruction raised (its causes are FaultsRaisedOnlyForTheirCause); and every call that reaches the fetch with such a
pc does fault so. The spec marks R230 and R223 derived. The spec's own here: the odd pc (D4, log entry 14), and the
range check first (D33), the codes (D36), what stopping is (D18) and the checks before any write (D12), all in log
entry 15; the pause is D17 (log entry 5). That the faulting call answers a next state is log entry 3, the served
request log entry 2. -/
def Obligations.FaultsArePrecise : Prop :=
  (∀ (s t : State) (r : Fault), s.fault = none → step s = .next t → t.fault = some r →
    t = ((({ s with paused := false } : State).tickTimers).raiseFault r).served ∧ r.pc = s.pc ∧ s.latch = false ∧
    (s.pc.toNat > 4094 → r = .fetchOutOfRange s.pc ∧ r.code = 1) ∧
    (s.pc.toNat ≤ 4094 → s.pc.toNat % 2 = 1 → s.params.oddPcFetch = .fault → r = .misalignedFetch s.pc ∧ r.code = 2) ∧
    (s.fetchOk → ∃ i u, decode s.wordAtPc = .instr i ∧
      exec i ({ s with paused := false } : State).tickTimers = .next u ∧ u.fault = some r)) ∧
  (∀ (s : State), s.reachesStep3 →
    (s.pc.toNat > 4094 → ∃ t, step s = .next t ∧ t.fault = some (.fetchOutOfRange s.pc)) ∧
    (s.pc.toNat ≤ 4094 → s.pc.toNat % 2 = 1 → s.params.oddPcFetch = .fault →
      ∃ t, step s = .next t ∧ t.fault = some (.misalignedFetch s.pc)))

/-- R221: an instruction raises a fault only for its cause, and records the reason, pc, the word and I or V[x]. The
codes are the spec's decision D36, the key index fault its D11, the range without a wrap its D12, and the check of
clipped rows its D13 (log entry 15); the fault entry as a next state is log entry 3, the word as encode i log entry 13
(DEDUCED). -/
def Obligations.FaultsRaisedOnlyForTheirCause : Prop :=
  ∀ (i : Instr) (s t : State) (r : Fault), s.fault = none → exec i s = .next t → t.fault = some r →
    ((∃ nnn, i = .call nnn) ∧ s.sp.val = 16 ∧ r = .stackOverflow s.pc (encode i) ∧ r.code = 3) ∨
    (((∃ x, i = .ldB x ∧ s.i.toNat + 2 > 4095) ∨ (∃ x : Reg, i = .store x ∧ s.i.toNat + x.val > 4095) ∨
      (∃ x : Reg, i = .load x ∧ s.i.toNat + x.val > 4095) ∨
      (∃ x y n, i = .drw x y n ∧ 1 ≤ n.val ∧ s.i.toNat + n.val - 1 > 4095)) ∧
      r = .memOutOfRange s.pc (encode i) s.i ∧ r.code = 4) ∨
    (∃ x, (i = .skp x ∨ i = .sknp x) ∧ (s.getV x).toNat > 15 ∧
      r = .keyIndexOutOfRange s.pc (encode i) (s.getV x) ∧ r.code = 5)

/-! Load and construction (70_reset_and_hazards.md). -/

/-- R253: the load writes the program, then the font over it at 0 to 79, then pc, and changes nothing else (but the
model's own mark that it was made, log entry 6). The order is the spec's decision D20 (log entry 15); any font is
covered (D21, log entry 9). -/
def Obligations.LoadWritesProgramThenFontThenPc : Prop :=
  ∀ (font : Config.Font) (bytes : List Byte) (length start : Nat) (s : State), s.mem.wf → s.loadOpen = true →
    start + length ≤ 4096 → length ≤ 3584 → length ≤ bytes.length →
    ∃ t, s.load font bytes length start = .next t ∧ t.pc.toNat = start ∧
      (∀ a, (h : a < 80) → t.mem.read a = font[a]) ∧
      (∀ k, (h : k < bytes.length) → k < length → 80 ≤ start + k → t.mem.read (start + k) = bytes[k]) ∧
      (∀ a, 80 ≤ a → (a < start ∨ start + length ≤ a) → t.mem.read a = s.mem.read a) ∧
      t = { s with mem := t.mem, pc := t.pc, loadOpen := false }

/-- R252, R254: a load that breaks a precondition, and a second load or one after a cycle call, are refused (the
spec's decision D20, log entry 15; the mark of a load is the model's, log entry 6). -/
def Obligations.LoadRefusedOnBrokenPrecondition : Prop :=
  ∀ (font : Config.Font) (bytes : List Byte) (length start : Nat) (s : State),
    (start + length > 4096 ∨ length > 3584 → ∃ r, s.load font bytes length start = .refused r) ∧
    (s.loadOpen = false → s.load font bytes length start = .refused .loadNotFirst) ∧
    (∀ t, s.load font bytes length start = .next t → t.loadOpen = false) ∧
    (∀ t, step s = .next t → t.loadOpen = false)

/-- R255: with no load, the first 2048 calls from construction are SYS no-ops that slide pc through zeroed memory, and
the next one faults FetchOutOfRange (the spec's decision D27, log entry 15; that 0x0000 is SYS is D2 and D8, log entry
8; the value 0 of DEBUG_LEVEL is the spec's, R7, log entry 14). The log is the model's field (log entry 7). -/
def Obligations.CallsBeforeLoadSlideToTheFault : Prop :=
  (∀ k, k ≤ 2048 → ∃ t, Sys2Proof.core.run k State.reset = .next t ∧ t.pc.toNat = 2 * k ∧ t.fault = none ∧
    t.log = List.replicate k (.sysCall 0) ∧ t.dt = 0 ∧ t.st = 0) ∧
  (∃ t, Sys2Proof.core.run 2049 State.reset = .next t ∧ t.fault = some (.fetchOutOfRange 4096))

/-! Control transfer (41_control_flow.md). -/

/-- R120: SYS is a logged no-op. The words are encoded by the spec's decisions D2 and D8 (log entry 8, PRESUMED). The
log is the model's field (log entry 7). -/
def Obligations.SysIsALoggedNoOp : Prop :=
  ∀ (s : State) (nnn : Addr), nnn ≠ 0x0E0 → nnn ≠ 0x0EE →
    EncodedAs nnn.toNat (.sys nnn) ∧
    exec (.sys nnn) s = .next { s with log := .sysCall nnn :: s.log, pc := s.pc + 2 }

/-- R121, R128: JP sets pc to nnn, BNNN to nnn + V0 whatever bits 11 to 8 hold; neither advances, checks its target or
changes anything else. The words are encoded by the spec's decision D2 (log entry 8, PRESUMED). -/
def Obligations.JumpsSetOnlyPc : Prop :=
  ∀ (s : State) (nnn : Addr),
    EncodedAs (0x1000 + nnn.toNat) (.jp nnn) ∧ EncodedAs (0xB000 + nnn.toNat) (.jpV0 nnn) ∧
    (∃ p : Word, p.toNat = nnn.toNat ∧ exec (.jp nnn) s = .next { s with pc := p }) ∧
    (∃ p : Word, p.toNat = nnn.toNat + (s.getV 0).toNat ∧ exec (.jpV0 nnn) s = .next { s with pc := p })

/-- R122: CALL pushes its own address and jumps; with 16 entries it raises StackOverflow and writes nothing else. What
FAULT records, pc and the word, is R221; that the fault entry sets FAULT and nothing else is R229 with the spec's
decision D18 (log entry 15), a next state by log entry 3 (DEDUCED), with the word as the instruction's encoding by log
entry 13 (DEDUCED). The words are encoded by the spec's decision D2 (log entry 8, PRESUMED). -/
def Obligations.CallPushesItsOwnAddress : Prop :=
  ∀ (s : State) (nnn : Addr),
    EncodedAs (0x2000 + nnn.toNat) (.call nnn) ∧
    (s.sp.val < 16 → ∃ t, exec (.call nnn) s = .next t ∧ t.pc.toNat = nnn.toNat ∧ t.sp.val = s.sp.val + 1 ∧
      (∀ k, (h : k < 16) → t.stack[k] = if k = s.sp.val then s.pc else s.stack[k]) ∧
      (∀ a, t.mem.read a = s.mem.read a) ∧ t = { s with pc := t.pc, sp := t.sp, stack := t.stack }) ∧
    (s.sp.val = 16 → ∃ w : Word, w.toNat = 0x2000 + nnn.toNat ∧ Faults (.call nnn) s (.stackOverflow s.pc w))

/-- R123: RET pops the top address, adds RET_RESUME_OFFSET and leaves the slot's value (the spec's decision D24, log
entry 15); on an empty stack it logs and leaves pc. RET_RESUME_OFFSET is the spec's decision D5 (log entry 14); both
its values are stated. The words are encoded by the spec's decisions D2 and D8 (log entry 8, PRESUMED). The log is the
model's field (log entry 7). -/
def Obligations.RetResumesAtPoppedAddress : Prop :=
  ∀ (s : State),
    EncodedAs 0x00EE .ret ∧
    (s.sp.val = 0 → exec .ret s = .next { s with log := .emptyStackReturn :: s.log }) ∧
    (0 < s.sp.val → ∃ t, exec .ret s = .next t ∧ t.sp.val = s.sp.val - 1 ∧
      (s.params.retResumeOffset = .zero → t.pc = s.stack[s.sp.val - 1]'(by omega)) ∧
      (s.params.retResumeOffset = .two → t.pc = s.stack[s.sp.val - 1]'(by omega) + 2) ∧
      (∀ a, t.mem.read a = s.mem.read a) ∧ t = { s with pc := t.pc, sp := t.sp })

/-- A CALL and the RET that matches it, with any state between them that has the CALL's SP and slots in use, so nested
matched pairs may run between, whose stale slots differ (D24, log entry 15): SP and the slots in use are what they
were before the CALL, and pc is the CALL's own address plus RET_RESUME_OFFSET, the spec's decision D5 (log entry 14;
worked example E5). -/
def Obligations.CallThenRetRestoresTheStackPointer : Prop :=
  ∀ (s t u : State) (nnn : Addr), exec (.call nnn) s = .next t → s.sp.val < 16 → u.sp = t.sp →
    (∀ k, (h : k < 16) → k < t.sp.val → u.stack[k] = t.stack[k]) →
    ∃ z, exec .ret u = .next z ∧ z.sp = s.sp ∧ z.pc = s.pc + u.params.retResumeOffset.toWord ∧
      (∀ k, (h : k < 16) → k < s.sp.val → z.stack[k] = s.stack[k])

/-- R124, R125, R126, R127: the four skips on a comparison, of a register with an immediate or with a register; with x
= y SE always skips and SNE never does. The words are encoded by the spec's decisions D2 and D8 (log entry 8,
PRESUMED). -/
def Obligations.SkipsOnComparisonsMovePcOnly : Prop :=
  ∀ (s : State) (x y : Reg) (nn : Byte),
    EncodedAs (0x3000 + 256 * x.val + nn.toNat) (.seImm x nn) ∧
    EncodedAs (0x4000 + 256 * x.val + nn.toNat) (.sneImm x nn) ∧
    EncodedAs (0x5000 + 256 * x.val + 16 * y.val) (.seReg x y) ∧
    EncodedAs (0x9000 + 256 * x.val + 16 * y.val) (.sneReg x y) ∧
    exec (.seImm x nn) s = .next { s with pc := if s.getV x = nn then s.pc + 4 else s.pc + 2 } ∧
    exec (.sneImm x nn) s = .next { s with pc := if s.getV x ≠ nn then s.pc + 4 else s.pc + 2 } ∧
    exec (.seReg x y) s = .next { s with pc := if s.getV x = s.getV y then s.pc + 4 else s.pc + 2 } ∧
    exec (.sneReg x y) s = .next { s with pc := if s.getV x ≠ s.getV y then s.pc + 4 else s.pc + 2 }

/-! Registers and ALU (42_alu.md). -/

/-- R141: the model's write of result and flag is the rule's two ordered writes, and for x not F the two orders give the
same state. That the order is a parameter without a value is the spec's decision D6 (log entry 4). -/
def Obligations.ResultAndFlagAreTwoOrderedWrites : Prop :=
  ∀ (s : State) (x : Reg) (r f : Byte),
    (s.params.vfDestOrder = .flagLast → s.writeResultAndFlag x r f = (s.setV x r).setV vf f) ∧
    (s.params.vfDestOrder = .resultLast → s.writeResultAndFlag x r f = (s.setV vf f).setV x r) ∧
    (x ≠ vf → (s.setV x r).setV vf f = (s.setV vf f).setV x r)

/-- R142, R143, R144, R153: the register loads, the wrapping sum with an immediate and the masked random byte write
V[x] and no flag. The words are encoded by the spec's decisions D2 and D8 (log entry 8, PRESUMED). The free random
byte of each call is its decision D22 (log entry 2). -/
def Obligations.RegisterLoadsAndAddImmediateSetOnlyVx : Prop :=
  ∀ (s : State) (x y : Reg) (nn : Byte),
    EncodedAs (0x6000 + 256 * x.val + nn.toNat) (.ldImm x nn) ∧
    EncodedAs (0x7000 + 256 * x.val + nn.toNat) (.addImm x nn) ∧
    EncodedAs (0x8000 + 256 * x.val + 16 * y.val) (.ldReg x y) ∧
    EncodedAs (0xC000 + 256 * x.val + nn.toNat) (.rnd x nn) ∧
    SetsOnlyVx (.ldImm x nn) s x nn ∧
    (∃ r : Byte, r.toNat = ((s.getV x).toNat + nn.toNat) % 256 ∧ SetsOnlyVx (.addImm x nn) s x r) ∧
    SetsOnlyVx (.ldReg x y) s x (s.getV y) ∧
    SetsOnlyVx (.rnd x nn) s x (s.input.rnd &&& nn)

/-- R145, R146, R147: the logical operations, bit by bit; VF changes only as the destination (the spec's decision D34,
log entry 15). The words are encoded by the spec's decisions D2 and D8 (log entry 8, PRESUMED). -/
def Obligations.LogicalOperationsActBitwise : Prop :=
  ∀ (s : State) (x y : Reg),
    EncodedAs (0x8001 + 256 * x.val + 16 * y.val) (.or x y) ∧
    EncodedAs (0x8002 + 256 * x.val + 16 * y.val) (.and x y) ∧
    EncodedAs (0x8003 + 256 * x.val + 16 * y.val) (.xor x y) ∧
    (∃ r : Byte, (∀ k, k < 8 → r.getLsbD k = ((s.getV x).getLsbD k || (s.getV y).getLsbD k)) ∧
      SetsOnlyVx (.or x y) s x r) ∧
    (∃ r : Byte, (∀ k, k < 8 → r.getLsbD k = ((s.getV x).getLsbD k && (s.getV y).getLsbD k)) ∧
      SetsOnlyVx (.and x y) s x r) ∧
    (∃ r : Byte, (∀ k, k < 8 → r.getLsbD k = ((s.getV x).getLsbD k ^^ (s.getV y).getLsbD k)) ∧
      SetsOnlyVx (.xor x y) s x r)

/-- R148, R149, R151: the sum and the two differences modulo 256 to V[x], and to VF 1 when the sum exceeds 255, or
when there is no borrow, else 0; for x = F VF keeps the write that VF_DEST_ORDER puts last (R141, the spec's decision
D6, log entry 4). The words are encoded by the spec's decisions D2 and D8 (log entry 8, PRESUMED). -/
def Obligations.AddAndSubtractSetCarryOrNoBorrow : Prop :=
  ∀ (s : State) (x y : Reg),
    EncodedAs (0x8004 + 256 * x.val + 16 * y.val) (.addReg x y) ∧
    EncodedAs (0x8005 + 256 * x.val + 16 * y.val) (.sub x y) ∧
    EncodedAs (0x8007 + 256 * x.val + 16 * y.val) (.subn x y) ∧
    (∃ r f : Byte, r.toNat = ((s.getV x).toNat + (s.getV y).toNat) % 256 ∧
      f.toNat = (if (s.getV x).toNat + (s.getV y).toNat > 255 then 1 else 0) ∧
      SetsResultAndFlag (.addReg x y) s x r f) ∧
    (∃ r f : Byte, (r.toNat : Int) = ((s.getV x).toNat - (s.getV y).toNat : Int) % 256 ∧
      f.toNat = (if (s.getV x).toNat ≥ (s.getV y).toNat then 1 else 0) ∧
      SetsResultAndFlag (.sub x y) s x r f) ∧
    (∃ r f : Byte, (r.toNat : Int) = ((s.getV y).toNat - (s.getV x).toNat : Int) % 256 ∧
      f.toNat = (if (s.getV y).toNat ≥ (s.getV x).toNat then 1 else 0) ∧
      SetsResultAndFlag (.subn x y) s x r f)

/-- R150, R152: the shifts act on V[x] in place whatever y is (the spec's decision D35, log entry 15), and the bit
shifted out goes to VF; for x = F VF keeps the write that VF_DEST_ORDER puts last (R141, the spec's decision D6, log
entry 4). The words are encoded by the spec's decisions D2 and D8 (log entry 8, PRESUMED). -/
def Obligations.ShiftsSetTheBitShiftedOut : Prop :=
  ∀ (s : State) (x y : Reg),
    EncodedAs (0x8006 + 256 * x.val + 16 * y.val) (.shr x y) ∧
    EncodedAs (0x800E + 256 * x.val + 16 * y.val) (.shl x y) ∧
    (∃ r f : Byte, r.toNat = (s.getV x).toNat / 2 ∧ f.toNat = (s.getV x).toNat % 2 ∧
      SetsResultAndFlag (.shr x y) s x r f) ∧
    (∃ r f : Byte, r.toNat = (s.getV x).toNat * 2 % 256 ∧ f.toNat = (s.getV x).toNat / 128 ∧
      SetsResultAndFlag (.shl x y) s x r f)

/-! Index register and memory (43_index_memory.md). -/

/-- R170, R171, R172: the three writers of I; no flag (the spec's decision D34), no fault, nothing else; FX29 takes
the whole byte (its decision D10; both in log entry 15). The words are encoded by the spec's decisions D2 and D8 (log
entry 8, PRESUMED). -/
def Obligations.IndexRegisterOperations : Prop :=
  ∀ (s : State) (x : Reg) (nnn : Addr),
    EncodedAs (0xA000 + nnn.toNat) (.ldI nnn) ∧ EncodedAs (0xF01E + 256 * x.val) (.addI x) ∧
    EncodedAs (0xF029 + 256 * x.val) (.ldF x) ∧
    (∃ i : Word, i.toNat = nnn.toNat ∧ exec (.ldI nnn) s = .next { s with i := i, pc := s.pc + 2 }) ∧
    (∃ i : Word, i.toNat = (s.i.toNat + (s.getV x).toNat) % 65536 ∧
      exec (.addI x) s = .next { s with i := i, pc := s.pc + 2 }) ∧
    (∃ i : Word, i.toNat = (s.getV x).toNat * 5 ∧ exec (.ldF x) s = .next { s with i := i, pc := s.pc + 2 })

/-- R173: the three decimal digits at I, I + 1, I + 2, and no other byte; out of range it faults and writes nothing,
the whole range checked first (R56, the spec's decision D12, log entry 15); the fault entry is R229 with D18 (log
entries 3 and 15), what it records R221 (log entry 13). The words are encoded by the spec's decisions D2 and D8 (log
entry 8, PRESUMED). -/
def Obligations.BcdStoresThreeDecimalDigits : Prop :=
  ∀ (s : State) (x : Reg), s.mem.wf →
    EncodedAs (0xF033 + 256 * x.val) (.ldB x) ∧
    (s.i.toNat + 2 ≤ 4095 → ∃ t, exec (.ldB x) s = .next t ∧
      (t.mem.read s.i.toNat).toNat = (s.getV x).toNat / 100 ∧
      (t.mem.read (s.i.toNat + 1)).toNat = (s.getV x).toNat / 10 % 10 ∧
      (t.mem.read (s.i.toNat + 2)).toNat = (s.getV x).toNat % 10 ∧
      (∀ a, (a < s.i.toNat ∨ s.i.toNat + 2 < a) → t.mem.read a = s.mem.read a) ∧
      t = { s with mem := t.mem, pc := s.pc + 2 }) ∧
    (s.i.toNat + 2 > 4095 → ∃ w : Word, w.toNat = 0xF033 + 256 * x.val ∧
      Faults (.ldB x) s (.memOutOfRange s.pc w s.i))

/-- R174: V0 to V[x] at I to I + x, and no other byte; I unchanged (the spec's decision D9); out of range it faults
and writes nothing (R56, its decision D12; both in log entry 15); the fault entry is R229 with D18 (log entries 3 and
15), what it records R221 (log entry 13). The words are encoded by the spec's decisions D2 and D8 (log entry 8,
PRESUMED). -/
def Obligations.StoreWritesRegistersFromIndex : Prop :=
  ∀ (s : State) (x : Reg), s.mem.wf →
    EncodedAs (0xF055 + 256 * x.val) (.store x) ∧
    (s.i.toNat + x.val ≤ 4095 → ∃ t, exec (.store x) s = .next t ∧
      (∀ r : Reg, r ≤ x → t.mem.read (s.i.toNat + r.val) = s.getV r) ∧
      (∀ a, (a < s.i.toNat ∨ s.i.toNat + x.val < a) → t.mem.read a = s.mem.read a) ∧
      t = { s with mem := t.mem, pc := s.pc + 2 }) ∧
    (s.i.toNat + x.val > 4095 → ∃ w : Word, w.toNat = 0xF055 + 256 * x.val ∧
      Faults (.store x) s (.memOutOfRange s.pc w s.i))

/-- R175: V0 to V[x] from I to I + x, no other register; memory and I unchanged (the spec's decision D9); out of range
it faults and writes nothing (R56, its decision D12; both in log entry 15); the fault entry is R229 with D18 (log
entries 3 and 15), what it records R221 (log entry 13). The words are encoded by the spec's decisions D2 and D8 (log
entry 8, PRESUMED). -/
def Obligations.LoadReadsRegistersFromIndex : Prop :=
  ∀ (s : State) (x : Reg),
    EncodedAs (0xF065 + 256 * x.val) (.load x) ∧
    (s.i.toNat + x.val ≤ 4095 → ∃ t, exec (.load x) s = .next t ∧
      (∀ r : Reg, t.getV r = if r ≤ x then s.mem.read (s.i.toNat + r.val) else s.getV r) ∧
      (∀ a, t.mem.read a = s.mem.read a) ∧ t = { s with v := t.v, pc := s.pc + 2 }) ∧
    (s.i.toNat + x.val > 4095 → ∃ w : Word, w.toNat = 0xF065 + 256 * x.val ∧
      Faults (.load x) s (.memOutOfRange s.pc w s.i))

/-- The block round trip (worked example E10, R174, R175): FX55, then FX65 from the same memory region into any
register file, gives back V0 to V[x]. The region is the same at the I that FX55 leaves because FX55 leaves I
unchanged, the spec's decision D9 (log entry 15); E10's row rests on it too. -/
def Obligations.StoreThenLoadRestoresRegisters : Prop :=
  ∀ (s u : State) (x : Reg), s.mem.wf → s.i.toNat + x.val ≤ 4095 →
    ∃ t, exec (.store x) s = .next t ∧ (u.i = t.i → u.mem = t.mem →
      ∃ z, exec (.load x) u = .next z ∧ ∀ r : Reg, r ≤ x → z.getV r = s.getV r)

/-! Display (44_display.md). -/

/-- R190: CLS clears every pixel and nothing else. The word is encoded by the spec's decisions D2 and D8 (log entry 8,
PRESUMED). -/
def Obligations.ClsClearsEveryPixel : Prop :=
  ∀ (s : State), EncodedAs 0x00E0 .cls ∧
    ∃ t, exec .cls s = .next t ∧ (∀ r c, t.fb.pixel r c = false) ∧ (∀ a, t.mem.read a = s.mem.read a) ∧
      t = { s with fb := t.fb, pc := s.pc + 2 }

/-- R191, R192, R193: DRW inverts exactly the pixels of the framebuffer that a 1 bit of the sprite covers (the start
wraps, the body clips), VF is 1 exactly when one of them was set, and nothing else changes; out of range it faults and
draws nothing. The spec's own here: VF = 0 without a collision (D7), the range check (D12), n = 0 and the check of
clipped rows (D13), operands read before VF is written (D30), all in log entry 15; the start row's modulus, for both
its values (D14, log entry 14); and bit 7 leftmost (log entry 10); the fault entry is R229 with D18 (log entries 3 and
15), what it records R221 (log entry 13). The words are encoded by the spec's decision D2 (log entry 8, PRESUMED). -/
def Obligations.DrawXorsTheSpriteAndFlagsCollision : Prop :=
  ∀ (s : State) (x y : Reg) (n : Height),
    EncodedAs (0xD000 + 256 * x.val + 16 * y.val + n.val) (.drw x y n) ∧
    ((n.val = 0 ∨ s.i.toNat + n.val - 1 ≤ 4095) → ∃ t, exec (.drw x y n) s = .next t ∧
      (∀ row col, row < 32 → col < 64 → s.spriteCovers x y n row col → t.fb.pixel row col = !s.fb.pixel row col) ∧
      (∀ row col, row < 32 → col < 64 → ¬ s.spriteCovers x y n row col → t.fb.pixel row col = s.fb.pixel row col) ∧
      ((∃ row col, row < 32 ∧ col < 64 ∧ s.spriteCovers x y n row col ∧ s.fb.pixel row col = true) →
        t.getV vf = 1) ∧
      ((¬ ∃ row col, row < 32 ∧ col < 64 ∧ s.spriteCovers x y n row col ∧ s.fb.pixel row col = true) →
        t.getV vf = 0) ∧
      (∀ r, r ≠ vf → t.getV r = s.getV r) ∧ (∀ a, t.mem.read a = s.mem.read a) ∧
      t = { s with fb := t.fb, v := t.v, pc := s.pc + 2 }) ∧
    (1 ≤ n.val → s.i.toNat + n.val - 1 > 4095 → ∃ w : Word,
      w.toNat = 0xD000 + 256 * x.val + 16 * y.val + n.val ∧ Faults (.drw x y n) s (.memOutOfRange s.pc w s.i))

/-- R191: drawing the same sprite twice at the same position restores the framebuffer (worked example E8), and the
second draw flags a collision exactly when it unsets a pixel the first one set. The position is the same when neither
x nor y is F; with x or y = F the first draw's flag moves it, and each draw is DrawXorsTheSpriteAndFlagsCollision. The
spec's own here: VF = 0 without a collision (D7), the range check (D12) and n = 0 (D13), in log entry 15; the start
row's modulus (D14, log entry 14); bit 7 leftmost (log entry 10). -/
def Obligations.DrawTwiceRestoresTheFramebuffer : Prop :=
  ∀ (s : State) (x y : Reg) (n : Height), x ≠ vf → y ≠ vf → (n.val = 0 ∨ s.i.toNat + n.val - 1 ≤ 4095) →
    ∃ t u, exec (.drw x y n) s = .next t ∧ exec (.drw x y n) t = .next u ∧ u.fb = s.fb ∧
      (u.getV vf = 1 ↔ ∃ row col, row < 32 ∧ col < 64 ∧ s.spriteCovers x y n row col ∧ s.fb.pixel row col = false)

/-! Keypad and timers (45_keypad_timers.md). -/

/-- R202, R203: SKP and SKNP test the line V[x] selects in this call's keypad (one per call, the spec's decision D29);
with V[x] above 15 they fault (its decision D11; both in log entry 15); the fault entry is R229 with D18 (log entries
3 and 15), what it records R221 (log entry 13). The words are encoded by the spec's decisions D2 and D8 (log entry 8,
PRESUMED). -/
def Obligations.KeySkipsTestTheSelectedLine : Prop :=
  ∀ (s : State) (x : Reg),
    EncodedAs (0xE09E + 256 * x.val) (.skp x) ∧ EncodedAs (0xE0A1 + 256 * x.val) (.sknp x) ∧
    (∀ k : Fin 16, (s.getV x).toNat = k.val →
      exec (.skp x) s = .next { s with pc := if s.input.keypad[k.val] = true then s.pc + 4 else s.pc + 2 } ∧
      exec (.sknp x) s = .next { s with pc := if s.input.keypad[k.val] = false then s.pc + 4 else s.pc + 2 }) ∧
    ((s.getV x).toNat > 15 → ∃ w w' : Word, w.toNat = 0xE09E + 256 * x.val ∧ w'.toNat = 0xE0A1 + 256 * x.val ∧
      Faults (.skp x) s (.keyIndexOutOfRange s.pc w (s.getV x)) ∧
      Faults (.sknp x) s (.keyIndexOutOfRange s.pc w' (s.getV x)))

/-- R205: FX0A sets the latch and its destination and advances; it reads no keypad and writes no register. That pc
moves now is the spec's decision D15 (log entry 15). The words are encoded by the spec's decisions D2 and D8 (log
entry 8, PRESUMED). -/
def Obligations.WaitForKeySetsTheLatch : Prop :=
  ∀ (s : State) (x : Reg), EncodedAs (0xF00A + 256 * x.val) (.ldK x) ∧
    exec (.ldK x) s = .next { s with latch := true, latchDest := x, pc := s.pc + 2 }

/-- R233: the latch, the only interrupt-like source, becomes pending only when FX0A executes and is cleared only by a
call that sees a pressed line; while it is pending, no call fetches or executes: pc, I, the stack, the timers, the
framebuffer, memory, the latch's own destination and every other register stay. The host's load does not make it
pending. -/
def Obligations.LatchIsTheOnlyInterruptSource : Prop :=
  (∀ (s t : State), step s = .next t →
    (s.latch = false → t.latch = true → ∃ x, decode s.wordAtPc = .instr (.ldK x) ∧ t.latchDest = x) ∧
    (s.latch = true → t.latch = false → ∃ k : Fin 16, s.input.keypad[k.val] = true) ∧
    (s.latch = true → t.pc = s.pc ∧ t.i = s.i ∧ t.sp = s.sp ∧ t.stack = s.stack ∧ t.dt = s.dt ∧ t.st = s.st ∧
      t.fb = s.fb ∧ t.latchDest = s.latchDest ∧ (∀ a, t.mem.read a = s.mem.read a) ∧
      (∀ r, r ≠ s.latchDest → t.getV r = s.getV r))) ∧
  (∀ (font : Config.Font) (bytes : List Byte) (length start : Nat) (s t : State),
    s.load font bytes length start = .next t → t.latch = s.latch)

/-- R201: the timers have no effect other than their values. Calls from two states that differ only in ST differ only
in ST, and calls from two that differ in DT and ST differ only in those and, when the word at pc is FX07, in its
destination: so no timer value stops an instruction or raises an interrupt. FX07 reads DT, FX15 and FX18 write DT and
ST, as plain transfers. -/
def Obligations.TimersActOnlyWhereRead : Prop :=
  (∀ (s t : State), t = { s with st := t.st } →
    answersAgree (fun u z => z = { u with st := z.st }) (step s) (step t)) ∧
  (∀ (s t : State), t = { s with dt := t.dt, st := t.st } →
    (∀ x, decode s.wordAtPc ≠ .instr (.ldFromDt x)) →
    answersAgree (fun u z => z = { u with dt := z.dt, st := z.st }) (step s) (step t)) ∧
  (∀ (s t : State) (x : Reg), t = { s with dt := t.dt, st := t.st } → decode s.wordAtPc = .instr (.ldFromDt x) →
    answersAgree (fun u z => z = { u with dt := z.dt, st := z.st, v := z.v } ∧ ∀ r, r ≠ x → z.getV r = u.getV r)
      (step s) (step t)) ∧
  (∀ (s : State) (x : Reg),
    (∃ t, exec (.ldFromDt x) s = .next t ∧ t.getV x = s.dt ∧ t.dt = s.dt) ∧
    (∃ t, exec (.ldDt x) s = .next t ∧ t.dt = s.getV x ∧ t.getV x = s.getV x) ∧
    (∃ t, exec (.ldSt x) s = .next t ∧ t.st = s.getV x ∧ t.getV x = s.getV x))

/-- R204, R206, R207: the timer transfers. The words are encoded by the spec's decisions D2 and D8 (log entry 8,
PRESUMED). -/
def Obligations.TimerTransfersAreRegisterMoves : Prop :=
  ∀ (s : State) (x : Reg),
    EncodedAs (0xF007 + 256 * x.val) (.ldFromDt x) ∧ EncodedAs (0xF015 + 256 * x.val) (.ldDt x) ∧
    EncodedAs (0xF018 + 256 * x.val) (.ldSt x) ∧
    SetsOnlyVx (.ldFromDt x) s x s.dt ∧
    exec (.ldDt x) s = .next { s with dt := s.getV x, pc := s.pc + 2 } ∧
    exec (.ldSt x) s = .next { s with st := s.getV x, pc := s.pc + 2 }
end

