-- ==== Sys2Proof/Laws/Encoding.lean ====
section
/-! SUPPORT. The fields of a word and of a packed word as numbers, and that a word is the packing of its fields: what
every fact about decoding and encoding rests on. -/

namespace Sys2Proof

/-! The number a packed word is. -/

theorem regBits_toNat (x : Fin 16) : (BitVec.ofFin x : BitVec 4).toNat = x.val := rfl

theorem packNNN_toNat (op : BitVec 4) (a : Addr) : (packNNN op a).toNat = op.toNat * 4096 + a.toNat := by
  simp only [packNNN, BitVec.toNat_append]
  rw [← Nat.shiftLeft_add_eq_or_of_lt a.isLt, Nat.shiftLeft_eq]

theorem packXNN_toNat (op : BitVec 4) (x : Reg) (nn : Byte) :
    (packXNN op x nn).toNat = op.toNat * 4096 + x.val * 256 + nn.toNat := by
  rw [packXNN, packNNN_toNat, BitVec.toNat_append, ← Nat.shiftLeft_add_eq_or_of_lt nn.isLt, Nat.shiftLeft_eq,
    regBits_toNat x]
  omega

theorem packXYN_toNat (op : BitVec 4) (x y : Reg) (n : Height) :
    (packXYN op x y n).toNat = op.toNat * 4096 + x.val * 256 + y.val * 16 + n.val := by
  rw [packXYN, packXNN_toNat, BitVec.toNat_append, ← Nat.shiftLeft_add_eq_or_of_lt (BitVec.isLt _), Nat.shiftLeft_eq,
    regBits_toNat y, regBits_toNat n]
  omega

/-- A number is an instruction's word when the word's own number is that number and it decodes to the instruction. -/
theorem encodedAs_of_encode {n : Nat} {i : Instr} (hd : decode (encode i) = .instr i) (hn : (encode i).toNat = n) :
    Machine.EncodedAs n i := by
  rw [Machine.EncodedAs, ← hn, BitVec.ofNat_toNat, BitVec.setWidth_eq]
  exact hd

/-! The fields of a word as numbers (R8, R70). -/

theorem fieldOp_toNat (w : Word) : (fieldOp w).toNat = w.toNat / 4096 := by
  have := w.isLt
  simp only [fieldOp, BitVec.extractLsb'_toNat, Nat.shiftRight_eq_div_pow]
  omega

theorem fieldX_val (w : Word) : (fieldX w).val = w.toNat / 256 % 16 := by
  simp [fieldX, Nat.shiftRight_eq_div_pow]

theorem fieldY_val (w : Word) : (fieldY w).val = w.toNat / 16 % 16 := by
  simp [fieldY, Nat.shiftRight_eq_div_pow]

theorem fieldN_val (w : Word) : (fieldN w).val = w.toNat % 16 := by simp [fieldN]

theorem fieldNNN_toNat (w : Word) : (fieldNNN w).toNat = w.toNat % 4096 := by simp [fieldNNN]

theorem fieldNN_toNat (w : Word) : (fieldNN w).toNat = w.toNat % 256 := by simp [fieldNN]

/-! The fields of a packed word. -/

@[simp] theorem fieldOp_packNNN (op : BitVec 4) (a : Addr) : fieldOp (packNNN op a) = op := by
  apply BitVec.eq_of_toNat_eq
  rw [fieldOp_toNat, packNNN_toNat]
  omega

@[simp] theorem fieldNNN_packNNN (op : BitVec 4) (a : Addr) : fieldNNN (packNNN op a) = a := by
  apply BitVec.eq_of_toNat_eq
  rw [fieldNNN_toNat, packNNN_toNat]
  omega

@[simp] theorem fieldOp_packXNN (op : BitVec 4) (x : Reg) (nn : Byte) : fieldOp (packXNN op x nn) = op :=
  fieldOp_packNNN _ _

@[simp] theorem fieldX_packXNN (op : BitVec 4) (x : Reg) (nn : Byte) : fieldX (packXNN op x nn) = x := by
  apply Fin.ext
  rw [fieldX_val, packXNN_toNat]
  omega

@[simp] theorem fieldNN_packXNN (op : BitVec 4) (x : Reg) (nn : Byte) : fieldNN (packXNN op x nn) = nn := by
  apply BitVec.eq_of_toNat_eq
  rw [fieldNN_toNat, packXNN_toNat]
  omega

@[simp] theorem fieldOp_packXYN (op : BitVec 4) (x y : Reg) (n : Height) : fieldOp (packXYN op x y n) = op :=
  fieldOp_packXNN _ _ _

@[simp] theorem fieldX_packXYN (op : BitVec 4) (x y : Reg) (n : Height) : fieldX (packXYN op x y n) = x :=
  fieldX_packXNN _ _ _

@[simp] theorem fieldY_packXYN (op : BitVec 4) (x y : Reg) (n : Height) : fieldY (packXYN op x y n) = y := by
  apply Fin.ext
  rw [fieldY_val, packXYN_toNat]
  omega

@[simp] theorem fieldN_packXYN (op : BitVec 4) (x y : Reg) (n : Height) : fieldN (packXYN op x y n) = n := by
  apply Fin.ext
  rw [fieldN_val, packXYN_toNat]
  omega

/-! A word is the packing of its fields. -/

theorem packNNN_fields (w : Word) : packNNN (fieldOp w) (fieldNNN w) = w := by
  apply BitVec.eq_of_toNat_eq
  rw [packNNN_toNat, fieldOp_toNat, fieldNNN_toNat]
  omega

theorem packXNN_fields (w : Word) : packXNN (fieldOp w) (fieldX w) (fieldNN w) = w := by
  apply BitVec.eq_of_toNat_eq
  rw [packXNN_toNat, fieldOp_toNat, fieldX_val, fieldNN_toNat]
  omega

theorem packXYN_fields (w : Word) : packXYN (fieldOp w) (fieldX w) (fieldY w) (fieldN w) = w := by
  apply BitVec.eq_of_toNat_eq
  rw [packXYN_toNat, fieldOp_toNat, fieldX_val, fieldY_val, fieldN_val]
  omega

/-! A word and its two bytes (R53). -/

theorem wordOfBytes_toNat (hi lo : Byte) : (wordOfBytes hi lo).toNat = hi.toNat * 256 + lo.toNat := by
  rw [wordOfBytes, BitVec.toNat_append, ← Nat.shiftLeft_add_eq_or_of_lt lo.isLt, Nat.shiftLeft_eq]

theorem highByte_toNat (w : Word) : (highByte w).toNat = w.toNat / 256 := by
  have := w.isLt
  simp only [highByte, BitVec.extractLsb'_toNat, Nat.shiftRight_eq_div_pow]
  omega

theorem lowByte_toNat (w : Word) : (lowByte w).toNat = w.toNat % 256 := by simp [lowByte]

@[simp] theorem wordOfBytes_highByte_lowByte (w : Word) : wordOfBytes (highByte w) (lowByte w) = w := by
  apply BitVec.eq_of_toNat_eq
  rw [wordOfBytes_toNat, highByte_toNat, lowByte_toNat]
  omega

end Sys2Proof
end

