-- ==== Sys2Proof/Laws/State.lean ====
section
/-! SUPPORT. One lemma per field per update of State, true by rfl, so that no later proof unfolds a record update. The
conditional updates (skipIf, pauseAfter) change one field; their lemmas stand at the end. -/

namespace Sys2Proof.Machine

variable (s : State)

/-! setV -/

@[simp] theorem State.setV_mem (r : Reg) (b : Byte) : (s.setV r b).mem = s.mem := rfl
@[simp] theorem State.setV_v (r : Reg) (b : Byte) : (s.setV r b).v = s.v.set r.val b := rfl
@[simp] theorem State.setV_i (r : Reg) (b : Byte) : (s.setV r b).i = s.i := rfl
@[simp] theorem State.setV_pc (r : Reg) (b : Byte) : (s.setV r b).pc = s.pc := rfl
@[simp] theorem State.setV_stack (r : Reg) (b : Byte) : (s.setV r b).stack = s.stack := rfl
@[simp] theorem State.setV_sp (r : Reg) (b : Byte) : (s.setV r b).sp = s.sp := rfl
@[simp] theorem State.setV_dt (r : Reg) (b : Byte) : (s.setV r b).dt = s.dt := rfl
@[simp] theorem State.setV_st (r : Reg) (b : Byte) : (s.setV r b).st = s.st := rfl
@[simp] theorem State.setV_fb (r : Reg) (b : Byte) : (s.setV r b).fb = s.fb := rfl
@[simp] theorem State.setV_latch (r : Reg) (b : Byte) : (s.setV r b).latch = s.latch := rfl
@[simp] theorem State.setV_latchDest (r : Reg) (b : Byte) : (s.setV r b).latchDest = s.latchDest := rfl
@[simp] theorem State.setV_paused (r : Reg) (b : Byte) : (s.setV r b).paused = s.paused := rfl
@[simp] theorem State.setV_fault (r : Reg) (b : Byte) : (s.setV r b).fault = s.fault := rfl
@[simp] theorem State.setV_params (r : Reg) (b : Byte) : (s.setV r b).params = s.params := rfl
@[simp] theorem State.setV_pending (r : Reg) (b : Byte) : (s.setV r b).pending = s.pending := rfl
@[simp] theorem State.setV_calls (r : Reg) (b : Byte) : (s.setV r b).calls = s.calls := rfl
@[simp] theorem State.setV_loadOpen (r : Reg) (b : Byte) : (s.setV r b).loadOpen = s.loadOpen := rfl
@[simp] theorem State.setV_log (r : Reg) (b : Byte) : (s.setV r b).log = s.log := rfl

/-! advance -/

@[simp] theorem State.advance_mem : (s.advance).mem = s.mem := rfl
@[simp] theorem State.advance_v : (s.advance).v = s.v := rfl
@[simp] theorem State.advance_i : (s.advance).i = s.i := rfl
@[simp] theorem State.advance_pc : (s.advance).pc = s.pc + 2 := rfl
@[simp] theorem State.advance_stack : (s.advance).stack = s.stack := rfl
@[simp] theorem State.advance_sp : (s.advance).sp = s.sp := rfl
@[simp] theorem State.advance_dt : (s.advance).dt = s.dt := rfl
@[simp] theorem State.advance_st : (s.advance).st = s.st := rfl
@[simp] theorem State.advance_fb : (s.advance).fb = s.fb := rfl
@[simp] theorem State.advance_latch : (s.advance).latch = s.latch := rfl
@[simp] theorem State.advance_latchDest : (s.advance).latchDest = s.latchDest := rfl
@[simp] theorem State.advance_paused : (s.advance).paused = s.paused := rfl
@[simp] theorem State.advance_fault : (s.advance).fault = s.fault := rfl
@[simp] theorem State.advance_params : (s.advance).params = s.params := rfl
@[simp] theorem State.advance_pending : (s.advance).pending = s.pending := rfl
@[simp] theorem State.advance_calls : (s.advance).calls = s.calls := rfl
@[simp] theorem State.advance_loadOpen : (s.advance).loadOpen = s.loadOpen := rfl
@[simp] theorem State.advance_log : (s.advance).log = s.log := rfl

/-! jumpTo -/

@[simp] theorem State.jumpTo_mem (p : Word) : (s.jumpTo p).mem = s.mem := rfl
@[simp] theorem State.jumpTo_v (p : Word) : (s.jumpTo p).v = s.v := rfl
@[simp] theorem State.jumpTo_i (p : Word) : (s.jumpTo p).i = s.i := rfl
@[simp] theorem State.jumpTo_pc (p : Word) : (s.jumpTo p).pc = p := rfl
@[simp] theorem State.jumpTo_stack (p : Word) : (s.jumpTo p).stack = s.stack := rfl
@[simp] theorem State.jumpTo_sp (p : Word) : (s.jumpTo p).sp = s.sp := rfl
@[simp] theorem State.jumpTo_dt (p : Word) : (s.jumpTo p).dt = s.dt := rfl
@[simp] theorem State.jumpTo_st (p : Word) : (s.jumpTo p).st = s.st := rfl
@[simp] theorem State.jumpTo_fb (p : Word) : (s.jumpTo p).fb = s.fb := rfl
@[simp] theorem State.jumpTo_latch (p : Word) : (s.jumpTo p).latch = s.latch := rfl
@[simp] theorem State.jumpTo_latchDest (p : Word) : (s.jumpTo p).latchDest = s.latchDest := rfl
@[simp] theorem State.jumpTo_paused (p : Word) : (s.jumpTo p).paused = s.paused := rfl
@[simp] theorem State.jumpTo_fault (p : Word) : (s.jumpTo p).fault = s.fault := rfl
@[simp] theorem State.jumpTo_params (p : Word) : (s.jumpTo p).params = s.params := rfl
@[simp] theorem State.jumpTo_pending (p : Word) : (s.jumpTo p).pending = s.pending := rfl
@[simp] theorem State.jumpTo_calls (p : Word) : (s.jumpTo p).calls = s.calls := rfl
@[simp] theorem State.jumpTo_loadOpen (p : Word) : (s.jumpTo p).loadOpen = s.loadOpen := rfl
@[simp] theorem State.jumpTo_log (p : Word) : (s.jumpTo p).log = s.log := rfl

/-! logEvent -/

@[simp] theorem State.logEvent_mem (e : LogEvent) : (s.logEvent e).mem = s.mem := rfl
@[simp] theorem State.logEvent_v (e : LogEvent) : (s.logEvent e).v = s.v := rfl
@[simp] theorem State.logEvent_i (e : LogEvent) : (s.logEvent e).i = s.i := rfl
@[simp] theorem State.logEvent_pc (e : LogEvent) : (s.logEvent e).pc = s.pc := rfl
@[simp] theorem State.logEvent_stack (e : LogEvent) : (s.logEvent e).stack = s.stack := rfl
@[simp] theorem State.logEvent_sp (e : LogEvent) : (s.logEvent e).sp = s.sp := rfl
@[simp] theorem State.logEvent_dt (e : LogEvent) : (s.logEvent e).dt = s.dt := rfl
@[simp] theorem State.logEvent_st (e : LogEvent) : (s.logEvent e).st = s.st := rfl
@[simp] theorem State.logEvent_fb (e : LogEvent) : (s.logEvent e).fb = s.fb := rfl
@[simp] theorem State.logEvent_latch (e : LogEvent) : (s.logEvent e).latch = s.latch := rfl
@[simp] theorem State.logEvent_latchDest (e : LogEvent) : (s.logEvent e).latchDest = s.latchDest := rfl
@[simp] theorem State.logEvent_paused (e : LogEvent) : (s.logEvent e).paused = s.paused := rfl
@[simp] theorem State.logEvent_fault (e : LogEvent) : (s.logEvent e).fault = s.fault := rfl
@[simp] theorem State.logEvent_params (e : LogEvent) : (s.logEvent e).params = s.params := rfl
@[simp] theorem State.logEvent_pending (e : LogEvent) : (s.logEvent e).pending = s.pending := rfl
@[simp] theorem State.logEvent_calls (e : LogEvent) : (s.logEvent e).calls = s.calls := rfl
@[simp] theorem State.logEvent_loadOpen (e : LogEvent) : (s.logEvent e).loadOpen = s.loadOpen := rfl
@[simp] theorem State.logEvent_log (e : LogEvent) : (s.logEvent e).log = e :: s.log := rfl

/-! raiseFault -/

@[simp] theorem State.raiseFault_mem (f : Fault) : (s.raiseFault f).mem = s.mem := rfl
@[simp] theorem State.raiseFault_v (f : Fault) : (s.raiseFault f).v = s.v := rfl
@[simp] theorem State.raiseFault_i (f : Fault) : (s.raiseFault f).i = s.i := rfl
@[simp] theorem State.raiseFault_pc (f : Fault) : (s.raiseFault f).pc = s.pc := rfl
@[simp] theorem State.raiseFault_stack (f : Fault) : (s.raiseFault f).stack = s.stack := rfl
@[simp] theorem State.raiseFault_sp (f : Fault) : (s.raiseFault f).sp = s.sp := rfl
@[simp] theorem State.raiseFault_dt (f : Fault) : (s.raiseFault f).dt = s.dt := rfl
@[simp] theorem State.raiseFault_st (f : Fault) : (s.raiseFault f).st = s.st := rfl
@[simp] theorem State.raiseFault_fb (f : Fault) : (s.raiseFault f).fb = s.fb := rfl
@[simp] theorem State.raiseFault_latch (f : Fault) : (s.raiseFault f).latch = s.latch := rfl
@[simp] theorem State.raiseFault_latchDest (f : Fault) : (s.raiseFault f).latchDest = s.latchDest := rfl
@[simp] theorem State.raiseFault_paused (f : Fault) : (s.raiseFault f).paused = s.paused := rfl
@[simp] theorem State.raiseFault_fault (f : Fault) : (s.raiseFault f).fault = some f := rfl
@[simp] theorem State.raiseFault_params (f : Fault) : (s.raiseFault f).params = s.params := rfl
@[simp] theorem State.raiseFault_pending (f : Fault) : (s.raiseFault f).pending = s.pending := rfl
@[simp] theorem State.raiseFault_calls (f : Fault) : (s.raiseFault f).calls = s.calls := rfl
@[simp] theorem State.raiseFault_loadOpen (f : Fault) : (s.raiseFault f).loadOpen = s.loadOpen := rfl
@[simp] theorem State.raiseFault_log (f : Fault) : (s.raiseFault f).log = s.log := rfl

/-! tickTimers -/

@[simp] theorem State.tickTimers_mem : (s.tickTimers).mem = s.mem := rfl
@[simp] theorem State.tickTimers_v : (s.tickTimers).v = s.v := rfl
@[simp] theorem State.tickTimers_i : (s.tickTimers).i = s.i := rfl
@[simp] theorem State.tickTimers_pc : (s.tickTimers).pc = s.pc := rfl
@[simp] theorem State.tickTimers_stack : (s.tickTimers).stack = s.stack := rfl
@[simp] theorem State.tickTimers_sp : (s.tickTimers).sp = s.sp := rfl
@[simp] theorem State.tickTimers_dt : (s.tickTimers).dt = satDec s.dt := rfl
@[simp] theorem State.tickTimers_st : (s.tickTimers).st = satDec s.st := rfl
@[simp] theorem State.tickTimers_fb : (s.tickTimers).fb = s.fb := rfl
@[simp] theorem State.tickTimers_latch : (s.tickTimers).latch = s.latch := rfl
@[simp] theorem State.tickTimers_latchDest : (s.tickTimers).latchDest = s.latchDest := rfl
@[simp] theorem State.tickTimers_paused : (s.tickTimers).paused = s.paused := rfl
@[simp] theorem State.tickTimers_fault : (s.tickTimers).fault = s.fault := rfl
@[simp] theorem State.tickTimers_params : (s.tickTimers).params = s.params := rfl
@[simp] theorem State.tickTimers_pending : (s.tickTimers).pending = s.pending := rfl
@[simp] theorem State.tickTimers_calls : (s.tickTimers).calls = s.calls := rfl
@[simp] theorem State.tickTimers_loadOpen : (s.tickTimers).loadOpen = s.loadOpen := rfl
@[simp] theorem State.tickTimers_log : (s.tickTimers).log = s.log := rfl

/-! served -/

@[simp] theorem State.served_mem : (s.served).mem = s.mem := rfl
@[simp] theorem State.served_v : (s.served).v = s.v := rfl
@[simp] theorem State.served_i : (s.served).i = s.i := rfl
@[simp] theorem State.served_pc : (s.served).pc = s.pc := rfl
@[simp] theorem State.served_stack : (s.served).stack = s.stack := rfl
@[simp] theorem State.served_sp : (s.served).sp = s.sp := rfl
@[simp] theorem State.served_dt : (s.served).dt = s.dt := rfl
@[simp] theorem State.served_st : (s.served).st = s.st := rfl
@[simp] theorem State.served_fb : (s.served).fb = s.fb := rfl
@[simp] theorem State.served_latch : (s.served).latch = s.latch := rfl
@[simp] theorem State.served_latchDest : (s.served).latchDest = s.latchDest := rfl
@[simp] theorem State.served_paused : (s.served).paused = s.paused := rfl
@[simp] theorem State.served_fault : (s.served).fault = s.fault := rfl
@[simp] theorem State.served_params : (s.served).params = s.params := rfl
@[simp] theorem State.served_pending : (s.served).pending = s.pending.tail := rfl
@[simp] theorem State.served_calls : (s.served).calls = s.calls + 1 := rfl
@[simp] theorem State.served_loadOpen : (s.served).loadOpen = false := rfl
@[simp] theorem State.served_log : (s.served).log = s.log := rfl

/-! unpause -/

@[simp] theorem State.unpause_mem : s.unpause.mem = s.mem := rfl
@[simp] theorem State.unpause_v : s.unpause.v = s.v := rfl
@[simp] theorem State.unpause_i : s.unpause.i = s.i := rfl
@[simp] theorem State.unpause_pc : s.unpause.pc = s.pc := rfl
@[simp] theorem State.unpause_stack : s.unpause.stack = s.stack := rfl
@[simp] theorem State.unpause_sp : s.unpause.sp = s.sp := rfl
@[simp] theorem State.unpause_dt : s.unpause.dt = s.dt := rfl
@[simp] theorem State.unpause_st : s.unpause.st = s.st := rfl
@[simp] theorem State.unpause_fb : s.unpause.fb = s.fb := rfl
@[simp] theorem State.unpause_latch : s.unpause.latch = s.latch := rfl
@[simp] theorem State.unpause_latchDest : s.unpause.latchDest = s.latchDest := rfl
@[simp] theorem State.unpause_paused : s.unpause.paused = false := rfl
@[simp] theorem State.unpause_fault : s.unpause.fault = s.fault := rfl
@[simp] theorem State.unpause_params : s.unpause.params = s.params := rfl
@[simp] theorem State.unpause_pending : s.unpause.pending = s.pending := rfl
@[simp] theorem State.unpause_calls : s.unpause.calls = s.calls := rfl
@[simp] theorem State.unpause_loadOpen : s.unpause.loadOpen = s.loadOpen := rfl
@[simp] theorem State.unpause_log : s.unpause.log = s.log := rfl

/-! skipIf changes pc alone. -/

theorem State.skipIf_eq (c : Bool) : s.skipIf c = { s with pc := if c then s.pc + 2 else s.pc } := by
  cases c <;> rfl

@[simp] theorem State.skipIf_mem (c : Bool) : (s.skipIf c).mem = s.mem := by cases c <;> rfl
@[simp] theorem State.skipIf_v (c : Bool) : (s.skipIf c).v = s.v := by cases c <;> rfl
@[simp] theorem State.skipIf_i (c : Bool) : (s.skipIf c).i = s.i := by cases c <;> rfl
@[simp] theorem State.skipIf_pc (c : Bool) : (s.skipIf c).pc = if c then s.pc + 2 else s.pc := by cases c <;> rfl
@[simp] theorem State.skipIf_stack (c : Bool) : (s.skipIf c).stack = s.stack := by cases c <;> rfl
@[simp] theorem State.skipIf_sp (c : Bool) : (s.skipIf c).sp = s.sp := by cases c <;> rfl
@[simp] theorem State.skipIf_dt (c : Bool) : (s.skipIf c).dt = s.dt := by cases c <;> rfl
@[simp] theorem State.skipIf_st (c : Bool) : (s.skipIf c).st = s.st := by cases c <;> rfl
@[simp] theorem State.skipIf_fb (c : Bool) : (s.skipIf c).fb = s.fb := by cases c <;> rfl
@[simp] theorem State.skipIf_latch (c : Bool) : (s.skipIf c).latch = s.latch := by cases c <;> rfl
@[simp] theorem State.skipIf_latchDest (c : Bool) : (s.skipIf c).latchDest = s.latchDest := by cases c <;> rfl
@[simp] theorem State.skipIf_paused (c : Bool) : (s.skipIf c).paused = s.paused := by cases c <;> rfl
@[simp] theorem State.skipIf_fault (c : Bool) : (s.skipIf c).fault = s.fault := by cases c <;> rfl
@[simp] theorem State.skipIf_params (c : Bool) : (s.skipIf c).params = s.params := by cases c <;> rfl
@[simp] theorem State.skipIf_pending (c : Bool) : (s.skipIf c).pending = s.pending := by cases c <;> rfl
@[simp] theorem State.skipIf_calls (c : Bool) : (s.skipIf c).calls = s.calls := by cases c <;> rfl
@[simp] theorem State.skipIf_loadOpen (c : Bool) : (s.skipIf c).loadOpen = s.loadOpen := by cases c <;> rfl
@[simp] theorem State.skipIf_log (c : Bool) : (s.skipIf c).log = s.log := by cases c <;> rfl

/-! pauseAfter changes PAUSED alone. -/

theorem State.pauseAfter_eq :
    s.pauseAfter = { s with paused := if s.fault = none ∧ s.params.debugLevel = 3 then true else s.paused } := by
  unfold State.pauseAfter; split <;> rfl

@[simp] theorem State.pauseAfter_mem : s.pauseAfter.mem = s.mem := by rw [State.pauseAfter_eq]
@[simp] theorem State.pauseAfter_v : s.pauseAfter.v = s.v := by rw [State.pauseAfter_eq]
@[simp] theorem State.pauseAfter_i : s.pauseAfter.i = s.i := by rw [State.pauseAfter_eq]
@[simp] theorem State.pauseAfter_pc : s.pauseAfter.pc = s.pc := by rw [State.pauseAfter_eq]
@[simp] theorem State.pauseAfter_stack : s.pauseAfter.stack = s.stack := by rw [State.pauseAfter_eq]
@[simp] theorem State.pauseAfter_sp : s.pauseAfter.sp = s.sp := by rw [State.pauseAfter_eq]
@[simp] theorem State.pauseAfter_dt : s.pauseAfter.dt = s.dt := by rw [State.pauseAfter_eq]
@[simp] theorem State.pauseAfter_st : s.pauseAfter.st = s.st := by rw [State.pauseAfter_eq]
@[simp] theorem State.pauseAfter_fb : s.pauseAfter.fb = s.fb := by rw [State.pauseAfter_eq]
@[simp] theorem State.pauseAfter_latch : s.pauseAfter.latch = s.latch := by rw [State.pauseAfter_eq]
@[simp] theorem State.pauseAfter_latchDest : s.pauseAfter.latchDest = s.latchDest := by rw [State.pauseAfter_eq]
@[simp] theorem State.pauseAfter_paused : s.pauseAfter.paused = if s.fault = none ∧ s.params.debugLevel = 3 then true else s.paused := by rw [State.pauseAfter_eq]
@[simp] theorem State.pauseAfter_fault : s.pauseAfter.fault = s.fault := by rw [State.pauseAfter_eq]
@[simp] theorem State.pauseAfter_params : s.pauseAfter.params = s.params := by rw [State.pauseAfter_eq]
@[simp] theorem State.pauseAfter_pending : s.pauseAfter.pending = s.pending := by rw [State.pauseAfter_eq]
@[simp] theorem State.pauseAfter_calls : s.pauseAfter.calls = s.calls := by rw [State.pauseAfter_eq]
@[simp] theorem State.pauseAfter_loadOpen : s.pauseAfter.loadOpen = s.loadOpen := by rw [State.pauseAfter_eq]
@[simp] theorem State.pauseAfter_log : s.pauseAfter.log = s.log := by rw [State.pauseAfter_eq]

/-! writeResultAndFlag changes the register file alone. -/

theorem State.writeResultAndFlag_eq (x : Reg) (r f : Byte) :
    s.writeResultAndFlag x r f = { s with v := (s.writeResultAndFlag x r f).v } := by
  unfold State.writeResultAndFlag; split <;> rfl

@[simp] theorem State.writeResultAndFlag_mem (x : Reg) (r b : Byte) :
    (s.writeResultAndFlag x r b).mem = s.mem := by rw [State.writeResultAndFlag_eq]
@[simp] theorem State.writeResultAndFlag_i (x : Reg) (r b : Byte) :
    (s.writeResultAndFlag x r b).i = s.i := by rw [State.writeResultAndFlag_eq]
@[simp] theorem State.writeResultAndFlag_pc (x : Reg) (r b : Byte) :
    (s.writeResultAndFlag x r b).pc = s.pc := by rw [State.writeResultAndFlag_eq]
@[simp] theorem State.writeResultAndFlag_stack (x : Reg) (r b : Byte) :
    (s.writeResultAndFlag x r b).stack = s.stack := by rw [State.writeResultAndFlag_eq]
@[simp] theorem State.writeResultAndFlag_sp (x : Reg) (r b : Byte) :
    (s.writeResultAndFlag x r b).sp = s.sp := by rw [State.writeResultAndFlag_eq]
@[simp] theorem State.writeResultAndFlag_dt (x : Reg) (r b : Byte) :
    (s.writeResultAndFlag x r b).dt = s.dt := by rw [State.writeResultAndFlag_eq]
@[simp] theorem State.writeResultAndFlag_st (x : Reg) (r b : Byte) :
    (s.writeResultAndFlag x r b).st = s.st := by rw [State.writeResultAndFlag_eq]
@[simp] theorem State.writeResultAndFlag_fb (x : Reg) (r b : Byte) :
    (s.writeResultAndFlag x r b).fb = s.fb := by rw [State.writeResultAndFlag_eq]
@[simp] theorem State.writeResultAndFlag_latch (x : Reg) (r b : Byte) :
    (s.writeResultAndFlag x r b).latch = s.latch := by rw [State.writeResultAndFlag_eq]
@[simp] theorem State.writeResultAndFlag_latchDest (x : Reg) (r b : Byte) :
    (s.writeResultAndFlag x r b).latchDest = s.latchDest := by rw [State.writeResultAndFlag_eq]
@[simp] theorem State.writeResultAndFlag_paused (x : Reg) (r b : Byte) :
    (s.writeResultAndFlag x r b).paused = s.paused := by rw [State.writeResultAndFlag_eq]
@[simp] theorem State.writeResultAndFlag_fault (x : Reg) (r b : Byte) :
    (s.writeResultAndFlag x r b).fault = s.fault := by rw [State.writeResultAndFlag_eq]
@[simp] theorem State.writeResultAndFlag_params (x : Reg) (r b : Byte) :
    (s.writeResultAndFlag x r b).params = s.params := by rw [State.writeResultAndFlag_eq]
@[simp] theorem State.writeResultAndFlag_pending (x : Reg) (r b : Byte) :
    (s.writeResultAndFlag x r b).pending = s.pending := by rw [State.writeResultAndFlag_eq]
@[simp] theorem State.writeResultAndFlag_calls (x : Reg) (r b : Byte) :
    (s.writeResultAndFlag x r b).calls = s.calls := by rw [State.writeResultAndFlag_eq]
@[simp] theorem State.writeResultAndFlag_loadOpen (x : Reg) (r b : Byte) :
    (s.writeResultAndFlag x r b).loadOpen = s.loadOpen := by rw [State.writeResultAndFlag_eq]
@[simp] theorem State.writeResultAndFlag_log (x : Reg) (r b : Byte) :
    (s.writeResultAndFlag x r b).log = s.log := by rw [State.writeResultAndFlag_eq]

/-! A register reads the register file alone. -/

@[simp] theorem State.getV_advance (r : Reg) : s.advance.getV r = s.getV r := rfl
@[simp] theorem State.getV_jumpTo (p : Word) (r : Reg) : (s.jumpTo p).getV r = s.getV r := rfl
@[simp] theorem State.getV_logEvent (e : LogEvent) (r : Reg) : (s.logEvent e).getV r = s.getV r := rfl
@[simp] theorem State.getV_raiseFault (f : Fault) (r : Reg) : (s.raiseFault f).getV r = s.getV r := rfl
@[simp] theorem State.getV_tickTimers (r : Reg) : s.tickTimers.getV r = s.getV r := rfl
@[simp] theorem State.getV_served (r : Reg) : s.served.getV r = s.getV r := rfl
@[simp] theorem State.getV_unpause (r : Reg) : s.unpause.getV r = s.getV r := rfl
@[simp] theorem State.getV_skipIf (c : Bool) (r : Reg) : (s.skipIf c).getV r = s.getV r := by cases c <;> rfl
@[simp] theorem State.getV_pauseAfter (r : Reg) : s.pauseAfter.getV r = s.getV r := by
  rw [State.pauseAfter_eq]; rfl

end Sys2Proof.Machine
end

