-- ==== Sys2Proof/Laws/Ops.lean ====
section
/-! SUPPORT. For each shared operation, what it can do, said once: the register file, the stack, the key line, the
result and flag write, the block transfer into registers, the framebuffer's pixels, the draw's frame. -/

namespace Sys2Proof.Machine

/-! The register file. -/

theorem State.getV_setV (s : State) (r q : Reg) (b : Byte) :
    (s.setV r b).getV q = if r = q then b else s.getV q := by
  simp only [State.getV, State.setV, Vector.getElem_set, Fin.ext_iff]

@[simp] theorem State.getV_setV_self (s : State) (r : Reg) (b : Byte) : (s.setV r b).getV r = b := by
  simp [State.getV_setV]

@[simp] theorem State.getV_setV_of_ne (s : State) {r q : Reg} (b : Byte) (h : q ≠ r) :
    (s.setV r b).getV q = s.getV q := by
  rw [State.getV_setV, if_neg (Ne.symm h)]

/-- A register reads the register file alone. -/
theorem State.getV_congr {s t : State} (h : t.v = s.v) (r : Reg) : t.getV r = s.getV r := by
  simp only [State.getV, h]

/-- What each register holds after the result and flag write (R141). -/
theorem State.getV_writeResultAndFlag (s : State) (x q : Reg) (r f : Byte) :
    (s.writeResultAndFlag x r f).getV q =
      if q = vf then (if x = vf ∧ s.params.vfDestOrder = .resultLast then r else f)
      else if q = x then r else s.getV q := by
  unfold State.writeResultAndFlag
  by_cases hx : x = vf
  · subst hx
    rw [if_pos rfl, State.getV_setV]
    by_cases hq : q = vf
    · subst hq
      cases s.params.vfDestOrder <;> simp
    · simp [hq, Ne.symm hq]
  · rw [if_neg hx, State.getV_setV, State.getV_setV]
    by_cases hq : q = vf
    · simp [hq, hx]
    · simp [hq, Ne.symm hq, eq_comm]

/-! The block transfer into registers. -/

/-- Register k + j takes the j-th byte; every other register keeps its value. -/
theorem getElem_writeRegs (v : Vector Byte 16) (k : Nat) (bs : List Byte) (q : Nat) (hq : q < 16) :
    (writeRegs v k bs)[q] = if h : k ≤ q ∧ q < k + bs.length then bs[q - k]'(by omega) else v[q] := by
  induction bs generalizing v k with
  | nil => simp only [writeRegs, List.length_nil]; rw [dif_neg (by omega)]
  | cons b bs ih =>
    simp only [writeRegs, ih, List.length_cons]
    by_cases h1 : k + 1 ≤ q ∧ q < k + 1 + bs.length
    · rw [dif_pos h1, dif_pos (by omega)]
      simp only [show q - k = (q - (k + 1)) + 1 by omega, List.getElem_cons_succ]
    · rw [dif_neg h1, Vector.getElem_setIfInBounds]
      by_cases h2 : k = q
      · subst h2
        simp
      · rw [if_neg h2, dif_neg (by omega)]

@[simp] theorem State.length_regsUpTo (s : State) (x : Reg) : (s.regsUpTo x).length = x.val + 1 := by
  have := x.isLt
  simp [State.regsUpTo, this]

theorem State.getElem_regsUpTo (s : State) (x r : Reg) (h : r ≤ x) :
    (s.regsUpTo x)[r.val]'(by simp; omega) = s.getV r := by
  simp [State.regsUpTo, State.getV]

/-! The stack. -/

theorem State.push_eq_some {s t : State} {a : Word} (h : s.push a = some t) :
    ∃ hlt : s.sp.val < 16,
      t = { s with stack := s.stack.set s.sp.val a, sp := ⟨s.sp.val + 1, by omega⟩ } := by
  unfold State.push at h
  split at h
  · exact ⟨‹_›, (Option.some.inj h).symm⟩
  · simp at h

theorem State.push_eq_none {s : State} {a : Word} (h : s.push a = none) : s.sp.val = 16 := by
  unfold State.push at h
  split at h
  · simp at h
  · omega

theorem State.pop_eq_some {s t : State} {a : Word} (h : s.pop = some (a, t)) :
    ∃ hpos : 0 < s.sp.val,
      a = s.stack[s.sp.val - 1]'(by omega) ∧ t = { s with sp := ⟨s.sp.val - 1, by omega⟩ } := by
  unfold State.pop at h
  split at h
  · simp only [Option.some.injEq, Prod.mk.injEq] at h
    exact ⟨‹_›, h.1.symm, h.2.symm⟩
  · simp at h

theorem State.pop_eq_none {s : State} (h : s.pop = none) : s.sp.val = 0 := by
  unfold State.pop at h
  split at h
  · simp at h
  · omega

/-! The keypad. -/

theorem State.keyLine_eq_some {s : State} {x : Reg} {p : Bool} (h : s.keyLine x = some p) :
    ∃ hlt : (s.getV x).toNat < 16, p = s.input.keypad[(s.getV x).toNat] := by
  unfold State.keyLine at h
  split at h
  · exact ⟨‹_›, (Option.some.inj h).symm⟩
  · simp at h

theorem State.keyLine_eq_none {s : State} {x : Reg} (h : s.keyLine x = none) : 15 < (s.getV x).toNat := by
  unfold State.keyLine at h
  split at h
  · simp at h
  · omega

/-- The captured line is pressed and no lower one is (R93). -/
theorem lowestPressed_eq_some {kp : Keypad} {k : Fin 16} :
    lowestPressed kp = some k ↔ kp[k.val] = true ∧ ∀ j : Fin 16, j < k → kp[j.val] = false := by
  have ofMem : ∀ k, lowestPressed kp = some k → kp[k.val] = true ∧ ∀ j : Fin 16, j < k → kp[j.val] = false := by
    intro k h
    obtain ⟨hk, as, bs, happ, hlow⟩ := List.find?_eq_some_iff_append.1 h
    refine ⟨hk, fun j hj => ?_⟩
    have hsort : (as ++ k :: bs).Pairwise (· < ·) := happ ▸ List.pairwise_lt_finRange 16
    have hmem : j ∈ as ++ k :: bs := happ ▸ List.mem_finRange j
    rw [List.pairwise_append] at hsort
    rcases List.mem_append.1 hmem with hj' | hj'
    · simpa using hlow j hj'
    · rcases List.mem_cons.1 hj' with rfl | hj'
      · omega
      · have := (List.pairwise_cons.1 hsort.2.1).1 j hj'
        omega
  refine ⟨ofMem k, fun ⟨hk, hlow⟩ => ?_⟩
  cases hfind : lowestPressed kp with
  | none =>
    have := List.find?_eq_none.1 hfind k (List.mem_finRange k)
    simp_all
  | some q =>
    obtain ⟨hq, hqlow⟩ := ofMem q hfind
    rcases lt_trichotomy q k with h | h | h
    · simp_all
    · rw [h]
    · simp_all

theorem lowestPressed_eq_none {kp : Keypad} :
    lowestPressed kp = none ↔ ∀ k : Fin 16, kp[k.val] = false := by
  simp [lowestPressed, List.find?_eq_none]

theorem anyPressed_iff {kp : Keypad} : anyPressed kp = true ↔ ∃ k : Fin 16, kp[k.val] = true := by
  cases h : lowestPressed kp with
  | none =>
    have := lowestPressed_eq_none.1 h
    simp [anyPressed, h, this]
  | some k => simp only [anyPressed, h, Option.isSome_some, true_iff]; exact ⟨k, (lowestPressed_eq_some.1 h).1⟩

/-! The framebuffer. -/

/-- Inverting one pixel inverts that pixel and no other. -/
theorem Framebuffer.pixel_toggle (fb : Framebuffer) (r c row col : Nat) (hr : r < 32) (hc : c < 64) :
    (fb.toggle r c).pixel row col = (if row = r ∧ col = c then !fb.pixel row col else fb.pixel row col) := by
  have htog : fb.toggle r c = fb.set r (fb[r].set c (!fb[r][c])) := dif_pos ⟨hr, hc⟩
  rw [htog]
  unfold Framebuffer.pixel
  by_cases h : row < 32 ∧ col < 64
  · simp only [dif_pos h, Vector.getElem_set]
    by_cases h1 : r = row
    · subst h1
      by_cases h2 : c = col
      · subst h2; simp
      · simp [h2, Ne.symm h2]
    · simp [h1, Ne.symm h1]
  · rw [dif_neg h, if_neg (by omega), dif_neg h]

@[simp] theorem Framebuffer.pixel_blank (r c : Nat) : Framebuffer.blank.pixel r c = false := by
  simp [Framebuffer.pixel, Framebuffer.blank]

/-- A framebuffer is its pixels. -/
theorem Framebuffer.ext_pixel {a b : Framebuffer}
    (h : ∀ r c, r < 32 → c < 64 → a.pixel r c = b.pixel r c) : a = b := by
  apply Vector.ext
  intro r hr
  apply Vector.ext
  intro c hc
  have := h r c hr hc
  simpa only [Framebuffer.pixel, dif_pos (And.intro hr hc)] using this

/-- Plotting one 1 bit inside the framebuffer inverts its pixel and flags it if it was set; outside it does nothing. -/
theorem plot_eq (c : Canvas) (row col : Nat) :
    plot c row col = if row < 32 ∧ col < 64 then ⟨c.fb.toggle row col, c.hit || c.fb.pixel row col⟩ else c := rfl

end Sys2Proof.Machine
end

