-- ==== Sys2Proof/Laws/Cycle.lean ====
section
/-! SUPPORT. What exec and a cycle call can do, said once, so that invariants and whole-machine rules are case analyses
and the step is not unfolded again. -/

namespace Sys2Proof.Machine

/-- Every meaning answers a next state: faults are recorded in it (R229), and no instruction stops the machine. -/
theorem exec_next (i : Instr) (s : State) : ∃ t, exec i s = .next t := by
  cases i <;> simp only [exec]
  case call nnn => unfold execCall; split <;> exact ⟨_, rfl⟩
  case ret => unfold execRet; split <;> exact ⟨_, rfl⟩
  case drw x y n => unfold execDrw; split <;> exact ⟨_, rfl⟩
  case skp x => unfold execSkp; split <;> exact ⟨_, rfl⟩
  case sknp x => unfold execSknp; split <;> exact ⟨_, rfl⟩
  case ldB x => unfold execLdB; split <;> exact ⟨_, rfl⟩
  case store x => unfold execStore; split <;> exact ⟨_, rfl⟩
  case load x => unfold execLoad; split <;> exact ⟨_, rfl⟩
  all_goals exact ⟨_, rfl⟩

/-- So does the dispatch of any word. -/
theorem execWord_next (w : Word) (s : State) : ∃ t, execWord w s = .next t := by
  unfold execWord
  split
  · exact exec_next _ s
  · exact ⟨_, rfl⟩

/-- The fetch as its three cases (R96), with the word as Safety's number. -/
theorem State.fetch_cases (s : State) :
    (s.pc.toNat > 4094 ∧ s.fetch = .error (.fetchOutOfRange s.pc)) ∨
    (s.pc.toNat ≤ 4094 ∧ s.pc.toNat % 2 = 1 ∧ s.params.oddPcFetch = .fault ∧
      s.fetch = .error (.misalignedFetch s.pc)) ∨
    (s.fetchOk ∧ s.fetch = .ok s.wordAtPc) := by
  unfold State.fetch
  by_cases h1 : s.pc.toNat > 4094
  · exact .inl ⟨h1, if_pos h1⟩
  · rw [if_neg h1]
    by_cases h2 : s.pc.toNat % 2 = 1 ∧ s.params.oddPcFetch = .fault
    · exact .inr (.inl ⟨by omega, h2.1, h2.2, if_pos h2⟩)
    · rw [if_neg h2]
      refine .inr (.inr ⟨⟨by omega, ?_⟩, ?_⟩)
      · cases h3 : s.params.oddPcFetch
        · rw [h3] at h2; simp at h2; omega
        · exact .inr rfl
      · congr 1
        apply BitVec.eq_of_toNat_eq
        have h4 := (s.mem.read s.pc.toNat).isLt
        have h5 := (s.mem.read (s.pc.toNat + 1)).isLt
        rw [wordOfBytes_toNat, State.wordAtPc, BitVec.toNat_ofNat]
        omega

/-- Steps 3 to 8 end in a recorded fetch fault or in an executed word (R102). -/
theorem runInstr_cases {s t : State} (h : runInstr s = .next t) :
    (∃ r, s.tickTimers.fetch = .error r ∧ t = (s.tickTimers.raiseFault r).served) ∨
    (∃ u, s.tickTimers.fetch = .ok s.wordAtPc ∧ s.fetchOk ∧ execWord s.wordAtPc s.tickTimers = .next u ∧
      t = u.pauseAfter.served) := by
  unfold runInstr at h
  split at h
  · rename_i r hr
    cases h
    exact .inl ⟨r, hr, rfl⟩
  · rename_i w hw
    rcases s.tickTimers.fetch_cases with ⟨-, hf⟩ | ⟨-, -, -, hf⟩ | ⟨hok, hf⟩
    · rw [hf] at hw; cases hw
    · rw [hf] at hw; cases hw
    · rw [hf] at hw
      cases hw
      obtain ⟨u, hu⟩ := execWord_next s.tickTimers.wordAtPc s.tickTimers
      rw [hu] at h
      cases h
      exact .inr ⟨u, hf, hok, hu, rfl⟩

/-- runInstr always answers a next state. -/
theorem runInstr_next (s : State) : ∃ t, runInstr s = .next t := by
  unfold runInstr
  split
  · exact ⟨_, rfl⟩
  · obtain ⟨u, hu⟩ := execWord_next ‹Word› s.tickTimers
    rw [hu]
    exact ⟨_, rfl⟩

/-- The whole cycle call (R102), as one equation per case. -/
theorem step_of_fault {s : State} {r : Fault} (h : s.fault = some r) : step s = .fault r := by
  simp [step, cycle, h]

theorem step_of_latch {s : State} (hf : s.fault = none) (hl : s.latch = true) :
    step s = .next s.captureKey.served := by
  simp [step, cycle, hf, hl]

theorem step_of_pausedNoKey {s : State} (hf : s.fault = none) (hl : s.latch = false) (hp : s.paused = true)
    (hk : anyPressed s.input.keypad = false) : step s = .next s.served := by
  simp [step, cycle, hf, hl, hp, hk]

theorem step_of_pausedKey {s : State} (hf : s.fault = none) (hl : s.latch = false) (hp : s.paused = true)
    (hk : anyPressed s.input.keypad = true) :
    step s = if s.params.singleStepFallthrough then runInstr s.unpause
      else .next s.unpause.served := by
  simp [step, cycle, hf, hl, hp, hk]

theorem step_of_running {s : State} (h : s.isRunning) : step s = runInstr s := by
  simp [step, cycle, h.1, h.2.1, h.2.2]

theorem State.unpause_of_not_paused {s : State} (h : s.paused = false) : s.unpause = s := by
  rw [State.unpause, ← h]

/-- Everything a cycle call that has a step can do. -/
theorem step_cases {s t : State} (h : step s = .next t) :
    s.fault = none ∧
    ((s.latch = true ∧ t = s.captureKey.served) ∨
     (s.latch = false ∧ s.paused = true ∧ anyPressed s.input.keypad = false ∧ t = s.served) ∨
     (s.latch = false ∧ s.paused = true ∧ anyPressed s.input.keypad = true ∧
       s.params.singleStepFallthrough = false ∧ t = s.unpause.served) ∨
     (s.latch = false ∧ (s.paused = true → anyPressed s.input.keypad = true ∧
       s.params.singleStepFallthrough = true) ∧ runInstr s.unpause = .next t)) := by
  cases hf : s.fault with
  | some r => rw [step_of_fault hf] at h; cases h
  | none =>
    refine ⟨rfl, ?_⟩
    cases hl : s.latch with
    | true =>
      rw [step_of_latch hf hl] at h
      cases h
      exact .inl ⟨rfl, rfl⟩
    | false =>
      cases hp : s.paused with
      | false =>
        rw [step_of_running ⟨hf, hl, hp⟩] at h
        refine .inr (.inr (.inr ⟨rfl, by simp, ?_⟩))
        rwa [State.unpause_of_not_paused hp]
      | true =>
        cases hk : anyPressed s.input.keypad with
        | false =>
          rw [step_of_pausedNoKey hf hl hp hk] at h
          cases h
          exact .inr (.inl ⟨rfl, rfl, rfl, rfl⟩)
        | true =>
          rw [step_of_pausedKey hf hl hp hk] at h
          cases hs : s.params.singleStepFallthrough with
          | true =>
            rw [hs, if_pos rfl] at h
            exact .inr (.inr (.inr ⟨rfl, fun _ => ⟨rfl, rfl⟩, h⟩))
          | false =>
            rw [hs, if_neg (by simp)] at h
            cases h
            exact .inr (.inr (.inl ⟨rfl, rfl, rfl, rfl, rfl⟩))

/-- A core that has not faulted answers a next state to every cycle call (R92, R102). -/
theorem step_next {s : State} (hf : s.fault = none) : ∃ t, step s = .next t := by
  cases hl : s.latch with
  | true => exact ⟨_, step_of_latch hf hl⟩
  | false =>
    cases hp : s.paused with
    | false => rw [step_of_running ⟨hf, hl, hp⟩]; exact runInstr_next s
    | true =>
      cases hk : anyPressed s.input.keypad with
      | false => exact ⟨_, step_of_pausedNoKey hf hl hp hk⟩
      | true =>
        rw [step_of_pausedKey hf hl hp hk]
        split
        · exact runInstr_next _
        · exact ⟨_, rfl⟩

/-- A run of k + 1 steps of any machine is its first step, then k steps. -/
theorem run_succ (M : Host.Core) (k : Nat) (s : M.State) :
    M.run (k + 1) s =
      match M.step s with
      | .next t => M.run k t
      | .fault r => .fault r
      | .refused r => .refused r := rfl

/-- A run of k + 1 steps whose first step has a next state is the run of k steps from that state. -/
theorem run_succ_of_step (M : Host.Core) (k : Nat) {s t : M.State} (h : M.step s = .next t) :
    M.run (k + 1) s = M.run k t := by
  rw [run_succ, h]

/-- The same of this machine. -/
theorem run_succ_of_next {s t : State} (k : Nat) (h : step s = .next t) :
    Sys2Proof.core.run (k + 1) s = Sys2Proof.core.run k t :=
  run_succ_of_step Sys2Proof.core k h

end Sys2Proof.Machine
end

