-- ==== Sys2Proof/Laws/Display.lean ====
section
/-! SUPPORT. What the draw of a sprite leaves on each pixel and when it flags a collision, said once for a byte and once
for a whole sprite, so that no later proof unfolds the draw loop. -/

namespace Sys2Proof.Machine

/-- The pixel (r, k) is under a 1 bit of a sprite drawn with its top left corner at (row, x0). -/
def covered (bs : List Byte) (row x0 r k : Nat) : Bool :=
  decide (row ≤ r ∧ x0 ≤ k ∧ k < x0 + 8) && (bs.getD (r - row) 0).getLsbD (7 - (k - x0))

theorem covered_iff {bs : List Byte} {row x0 r k : Nat} :
    covered bs row x0 r k = true ↔
      ∃ q j, ∃ h : q < bs.length, j < 8 ∧ r = row + q ∧ k = x0 + j ∧ bs[q].getLsbD (7 - j) = true := by
  simp only [covered, Bool.and_eq_true, decide_eq_true_eq]
  constructor
  · rintro ⟨⟨h1, h2, h3⟩, h4⟩
    have hq : r - row < bs.length := by
      by_contra hq
      rw [List.getD_eq_default _ _ (by omega)] at h4
      simp at h4
    rw [List.getD_eq_getElem _ _ hq] at h4
    exact ⟨r - row, k - x0, hq, by omega, by omega, by omega, h4⟩
  · rintro ⟨q, j, h, hj, rfl, rfl, hb⟩
    refine ⟨by omega, ?_⟩
    rw [Nat.add_sub_cancel_left, Nat.add_sub_cancel_left, List.getD_eq_getElem _ _ h]
    exact hb

/-- The first j columns of one sprite byte invert the pixels under its 1 bits and no other. -/
theorem pixel_drawBits (c : Canvas) (b : Byte) (row x0 j r k : Nat) (hr : r < 32) (hk : k < 64) :
    (drawBits c b row x0 j).fb.pixel r k =
      (c.fb.pixel r k ^^ decide (r = row ∧ x0 ≤ k ∧ k < x0 + j ∧ b.getLsbD (7 - (k - x0)) = true)) := by
  induction j with
  | zero => rw [decide_eq_false (by omega)]; simp [drawBits]
  | succ j ih =>
    have hsucc : (r = row ∧ x0 ≤ k ∧ k < x0 + (j + 1) ∧ b.getLsbD (7 - (k - x0)) = true) ↔
        ((r = row ∧ x0 ≤ k ∧ k < x0 + j ∧ b.getLsbD (7 - (k - x0)) = true) ∨
          (r = row ∧ k = x0 + j ∧ b.getLsbD (7 - j) = true)) := by
      constructor
      · rintro ⟨h1, h2, h3, h4⟩
        by_cases hlt : k < x0 + j
        · exact .inl ⟨h1, h2, hlt, h4⟩
        · have e : k = x0 + j := by omega
          subst e
          rw [Nat.add_sub_cancel_left] at h4
          exact .inr ⟨h1, rfl, h4⟩
      · rintro (⟨h1, h2, h3, h4⟩ | ⟨h1, rfl, h4⟩)
        · exact ⟨h1, h2, by omega, h4⟩
        · refine ⟨h1, by omega, by omega, ?_⟩
          rwa [Nat.add_sub_cancel_left]
    rw [drawBits]
    by_cases hb : b.getLsbD (7 - j) = true
    · rw [if_pos hb, plot_eq]
      by_cases hin : row < 32 ∧ x0 + j < 64
      · rw [if_pos hin, Framebuffer.pixel_toggle _ _ _ _ _ hin.1 hin.2, ih]
        by_cases he : r = row ∧ k = x0 + j
        · rw [if_pos he, decide_eq_false (by omega), decide_eq_true (hsucc.2 (.inr ⟨he.1, he.2, hb⟩))]
          simp
        · rw [if_neg he]
          congr 1
          rw [decide_eq_decide, hsucc]
          tauto
      · rw [if_neg hin, ih]
        congr 1
        rw [decide_eq_decide, hsucc]
        exact ⟨.inl, fun h => h.resolve_right fun h' => hin ⟨h'.1 ▸ hr, h'.2.1 ▸ hk⟩⟩
    · rw [if_neg hb, ih]
      congr 1
      rw [decide_eq_decide, hsucc]
      tauto

/-- They flag a collision exactly when one of those pixels was set. -/
theorem hit_drawBits (c : Canvas) (b : Byte) (row x0 j : Nat) :
    (drawBits c b row x0 j).hit = true ↔ c.hit = true ∨
      ∃ k, row < 32 ∧ k < 64 ∧ x0 ≤ k ∧ k < x0 + j ∧ b.getLsbD (7 - (k - x0)) = true ∧ c.fb.pixel row k = true := by
  induction j with
  | zero =>
    refine ⟨.inl, ?_⟩
    rintro (h | ⟨k, -, -, h1, h2, -⟩)
    · exact h
    · omega
  | succ j ih =>
    have hlast : (row < 32 ∧ x0 + j < 64) → (drawBits c b row x0 j).fb.pixel row (x0 + j) = c.fb.pixel row (x0 + j) := by
      intro hin
      rw [pixel_drawBits _ _ _ _ _ _ _ hin.1 hin.2, decide_eq_false (by omega)]
      simp
    rw [drawBits]
    constructor
    · intro h
      have hcase : (drawBits c b row x0 j).hit = true ∨
          (b.getLsbD (7 - j) = true ∧ row < 32 ∧ x0 + j < 64 ∧ c.fb.pixel row (x0 + j) = true) := by
        split at h
        · rw [plot_eq] at h
          split at h
          · rw [hlast ‹_›] at h
            rcases Bool.or_eq_true_iff.1 h with h | h
            · exact .inl h
            · exact .inr ⟨‹_›, (‹_ ∧ _› : row < 32 ∧ x0 + j < 64).1, (‹_ ∧ _› : row < 32 ∧ x0 + j < 64).2, h⟩
          · exact .inl h
        · exact .inl h
      rcases hcase with h | ⟨hb, h1, h2, h3⟩
      · rcases ih.1 h with h | ⟨k, h1, h2, h3, h4, h5⟩
        · exact .inl h
        · exact .inr ⟨k, h1, h2, h3, by omega, h5⟩
      · refine .inr ⟨x0 + j, h1, h2, by omega, by omega, ?_, h3⟩
        rwa [Nat.add_sub_cancel_left]
    · intro h
      have hcase : (drawBits c b row x0 j).hit = true ∨
          (b.getLsbD (7 - j) = true ∧ (row < 32 ∧ x0 + j < 64) ∧ c.fb.pixel row (x0 + j) = true) := by
        rcases h with h | ⟨k, h1, h2, h3, h4, h5, h6⟩
        · exact .inl (ih.2 (.inl h))
        · by_cases hlt : k < x0 + j
          · exact .inl (ih.2 (.inr ⟨k, h1, h2, h3, hlt, h5, h6⟩))
          · have e : k = x0 + j := by omega
            subst e
            rw [Nat.add_sub_cancel_left] at h5
            exact .inr ⟨h5, ⟨h1, h2⟩, h6⟩
      rcases hcase with h | ⟨hb, hin, h⟩
      · split
        · rw [plot_eq]
          split
          · simp [h]
          · exact h
        · exact h
      · rw [if_pos hb, plot_eq, if_pos hin, hlast hin]
        simp [h]

/-- The whole sprite inverts the pixels under its 1 bits and no other. -/
theorem pixel_drawSprite (c : Canvas) (row x0 : Nat) (bs : List Byte) (r k : Nat) (hr : r < 32) (hk : k < 64) :
    (drawSprite c row x0 bs).fb.pixel r k = (c.fb.pixel r k ^^ covered bs row x0 r k) := by
  induction bs generalizing c row with
  | nil => simp [drawSprite, covered]
  | cons b bs ih =>
    rw [drawSprite, ih, pixel_drawBits _ _ _ _ _ _ _ hr hk, Bool.xor_assoc]
    congr 1
    by_cases hrow : r = row
    · subst hrow
      simp [covered]
      rw [Bool.eq_iff_iff]
      simp [and_assoc]
    · rw [decide_eq_false (by omega)]
      by_cases hlt : row + 1 ≤ r
      · simp [covered, hlt, show row ≤ r by omega, show r - row = r - (row + 1) + 1 by omega]
      · simp [covered, show ¬ row ≤ r by omega, show ¬ row + 1 ≤ r by omega]

/-- It flags a collision exactly when one of those pixels inside the framebuffer was set. -/
theorem hit_drawSprite (c : Canvas) (row x0 : Nat) (bs : List Byte) :
    (drawSprite c row x0 bs).hit = true ↔ c.hit = true ∨
      ∃ r k, r < 32 ∧ k < 64 ∧ covered bs row x0 r k = true ∧ c.fb.pixel r k = true := by
  induction bs generalizing c row with
  | nil => simp [drawSprite, covered]
  | cons b bs ih =>
    rw [drawSprite, ih, hit_drawBits]
    have hfirst (k : Nat) : covered (b :: bs) row x0 row k =
        decide (x0 ≤ k ∧ k < x0 + 8 ∧ b.getLsbD (7 - (k - x0)) = true) := by
      rw [Bool.eq_iff_iff]
      simp [covered, and_assoc]
    have hlater (r k : Nat) (h : row + 1 ≤ r) : covered (b :: bs) row x0 r k = covered bs (row + 1) x0 r k := by
      simp [covered, h, show row ≤ r by omega, show r - row = r - (row + 1) + 1 by omega]
    have hsame (r k : Nat) (hr : r < 32) (hk : k < 64) (h : row + 1 ≤ r) :
        (drawBits c b row x0 8).fb.pixel r k = c.fb.pixel r k := by
      rw [pixel_drawBits _ _ _ _ _ _ _ hr hk, decide_eq_false (by omega)]
      simp
    have hbelow {bs : List Byte} {row r k : Nat} (h : covered bs row x0 r k = true) : row ≤ r := by
      obtain ⟨q, j, -, -, h, -⟩ := covered_iff.1 h
      omega
    constructor
    · rintro ((h | ⟨k, h1, h2, h3, h4, h5, h6⟩) | ⟨r, k, h1, h2, h3, h4⟩)
      · exact .inl h
      · exact .inr ⟨row, k, h1, h2, by rw [hfirst]; exact decide_eq_true ⟨h3, h4, h5⟩, h6⟩
      · rw [hsame r k h1 h2 (hbelow h3)] at h4
        exact .inr ⟨r, k, h1, h2, by rw [hlater r k (hbelow h3)]; exact h3, h4⟩
    · rintro (h | ⟨r, k, h1, h2, h3, h4⟩)
      · exact .inl (.inl h)
      · by_cases hrow : r = row
        · subst hrow
          rw [hfirst, decide_eq_true_eq] at h3
          exact .inl (.inr ⟨k, h1, h2, h3.1, h3.2.1, h3.2.2, h4⟩)
        · have hge : row + 1 ≤ r := by have := hbelow h3; omega
          exact .inr ⟨r, k, h1, h2, by rw [← hlater r k hge]; exact h3, by rw [hsame r k h1 h2 hge]; exact h4⟩

/-- The sprite's 1 bits are Safety's spriteCovers. -/
theorem State.covered_iff_spriteCovers (s : State) (x y : Reg) (n : Height) (r k : Nat) :
    covered (s.mem.readBytes (s.dataAddr 0) n.val) (s.spriteRow y) (s.spriteCol x) r k = true ↔
      s.spriteCovers x y n r k := by
  rw [covered_iff, State.spriteCovers]
  constructor
  · rintro ⟨q, j, h, hj, hr, hk, hb⟩
    rw [Memory.getElem_readBytes] at hb
    rw [Memory.length_readBytes] at h
    exact ⟨q, j, h, hj, hr, hk, hb⟩
  · rintro ⟨q, j, h, hj, hr, hk, hb⟩
    refine ⟨q, j, by rwa [Memory.length_readBytes], hj, hr, hk, ?_⟩
    rw [Memory.getElem_readBytes]
    exact hb

end Sys2Proof.Machine
end

