-- ==== Sys2Proof/Laws/PerInstr.lean ====
section
/-! SUPPORT. The family Encoding of statements made per instruction, about the instruction as syntax: a well-formed
instruction's word decodes to it. One lemma per constructor of Instr. -/

namespace Sys2Proof.Laws.Encoding

/-- A well-formed instruction's word decodes to the instruction, every operand as encoded (R70, R74, R75). -/
def Statement (i : Instr) : Prop := i.wf = true → decode (encode i) = .instr i

theorem cls : Statement .cls :=
  fun _ => by decide

theorem ret : Statement .ret :=
  fun _ => by decide

theorem sys (nnn : Addr) : Statement (.sys nnn) := by
  intro h
  have word (c : Addr) (hne : nnn ≠ c) : packNNN 0#4 nnn ≠ c.setWidth 16 := fun e => hne <| by
    have := congrArg BitVec.toNat e
    rw [packNNN_toNat, BitVec.toNat_setWidth] at this
    apply BitVec.eq_of_toNat_eq
    simp at this
    omega
  simp only [Bool.and_eq_true, bne_iff_ne] at h
  have hE0 : packNNN 0#4 nnn ≠ 0x00E0#16 := word 0x0E0 h.1
  have hEE : packNNN 0#4 nnn ≠ 0x00EE#16 := word 0x0EE h.2
  simp [encode, decode, decodeGroup0, hE0, hEE]

theorem jp (nnn : Addr) : Statement (.jp nnn) :=
  fun _ => by simp [encode, decode]

theorem call (nnn : Addr) : Statement (.call nnn) :=
  fun _ => by simp [encode, decode]

theorem seImm (x : Reg) (nn : Byte) : Statement (.seImm x nn) :=
  fun _ => by simp [encode, decode]

theorem sneImm (x : Reg) (nn : Byte) : Statement (.sneImm x nn) :=
  fun _ => by simp [encode, decode]

theorem seReg (x y : Reg) : Statement (.seReg x y) :=
  fun _ => by simp [encode, decode]

theorem ldImm (x : Reg) (nn : Byte) : Statement (.ldImm x nn) :=
  fun _ => by simp [encode, decode]

theorem addImm (x : Reg) (nn : Byte) : Statement (.addImm x nn) :=
  fun _ => by simp [encode, decode]

theorem ldReg (x y : Reg) : Statement (.ldReg x y) :=
  fun _ => by simp [encode, decode, decodeGroup8]

theorem or (x y : Reg) : Statement (.or x y) :=
  fun _ => by simp [encode, decode, decodeGroup8]

theorem and (x y : Reg) : Statement (.and x y) :=
  fun _ => by simp [encode, decode, decodeGroup8]

theorem xor (x y : Reg) : Statement (.xor x y) :=
  fun _ => by simp [encode, decode, decodeGroup8]

theorem addReg (x y : Reg) : Statement (.addReg x y) :=
  fun _ => by simp [encode, decode, decodeGroup8]

theorem sub (x y : Reg) : Statement (.sub x y) :=
  fun _ => by simp [encode, decode, decodeGroup8]

theorem shr (x y : Reg) : Statement (.shr x y) :=
  fun _ => by simp [encode, decode, decodeGroup8]

theorem subn (x y : Reg) : Statement (.subn x y) :=
  fun _ => by simp [encode, decode, decodeGroup8]

theorem shl (x y : Reg) : Statement (.shl x y) :=
  fun _ => by simp [encode, decode, decodeGroup8]

theorem sneReg (x y : Reg) : Statement (.sneReg x y) :=
  fun _ => by simp [encode, decode]

theorem ldI (nnn : Addr) : Statement (.ldI nnn) :=
  fun _ => by simp [encode, decode]

theorem jpV0 (nnn : Addr) : Statement (.jpV0 nnn) :=
  fun _ => by simp [encode, decode]

theorem rnd (x : Reg) (nn : Byte) : Statement (.rnd x nn) :=
  fun _ => by simp [encode, decode]

theorem drw (x y : Reg) (n : Height) : Statement (.drw x y n) :=
  fun _ => by simp [encode, decode]

theorem skp (x : Reg) : Statement (.skp x) :=
  fun _ => by simp [encode, decode, decodeGroupE]

theorem sknp (x : Reg) : Statement (.sknp x) :=
  fun _ => by simp [encode, decode, decodeGroupE]

theorem ldFromDt (x : Reg) : Statement (.ldFromDt x) :=
  fun _ => by simp [encode, decode, decodeGroupF]

theorem ldK (x : Reg) : Statement (.ldK x) :=
  fun _ => by simp [encode, decode, decodeGroupF]

theorem ldDt (x : Reg) : Statement (.ldDt x) :=
  fun _ => by simp [encode, decode, decodeGroupF]

theorem ldSt (x : Reg) : Statement (.ldSt x) :=
  fun _ => by simp [encode, decode, decodeGroupF]

theorem addI (x : Reg) : Statement (.addI x) :=
  fun _ => by simp [encode, decode, decodeGroupF]

theorem ldF (x : Reg) : Statement (.ldF x) :=
  fun _ => by simp [encode, decode, decodeGroupF]

theorem ldB (x : Reg) : Statement (.ldB x) :=
  fun _ => by simp [encode, decode, decodeGroupF]

theorem store (x : Reg) : Statement (.store x) :=
  fun _ => by simp [encode, decode, decodeGroupF]

theorem load (x : Reg) : Statement (.load x) :=
  fun _ => by simp [encode, decode, decodeGroupF]

end Sys2Proof.Laws.Encoding
end

