-- ==== Sys2Proof/Tests/Slice0.lean ====
section
/-! SUPPORT. Small tests of single steps and single words. Every expected result is a row of spec/95_test_vectors.md
(V1 to V168, E1 to E12) or the bit pattern of spec/opcode_table.json written out, not an answer of the model. -/

namespace Sys2Proof.Tests

open Sys2Proof.Machine

/-! Helpers. -/

/-- The vectors' start state: construction, pc = 0x200, the word at 0x200. -/
def at200 (w : Nat) : State := ({ State.reset with pc := 0x200 } : State).withFetchWord 16 w

/-- One byte of memory set. -/
def poke (s : State) (a : Nat) (b : Byte) : State := { s with mem := s.mem.write a b }

/-- The request of the next cycle call: the listed lines pressed, and the random byte. -/
def pressing (s : State) (keys : List Nat) (rnd : Byte := 0) : State :=
  { s with pending := [{ keypad := Vector.ofFn fun k => keys.contains k.val, rnd := rnd }] }

/-- The step has a next state, and p holds of it. -/
def steps (s : State) (p : State → Bool) : Bool :=
  match step s with
  | .next t => p t
  | .fault _ => false
  | .refused _ => false

/-- The word's instruction decodes from the table numbering. -/
def reads (w : Nat) (i : Instr) : Bool := decodeTableWord 16 w == some i

/-! WellFormed: the one check refuses the two ill-formed terms, and no other SYS. -/

theorem test_wf_refuses_sys_0E0 : Instr.wf (.sys 0x0E0) = false := by decide
theorem test_wf_refuses_sys_0EE : Instr.wf (.sys 0x0EE) = false := by decide
theorem test_wf_keeps_sys_0E1 : Instr.wf (.sys 0x0E1) = true := by decide

/-! Decoding: every constructor's word, written bit by bit from its row's pattern (R74). -/

theorem test_decode_group0 :
    reads 0b0000_0000_1110_0000 .cls ∧ reads 0b0000_0000_1110_1110 .ret ∧
    reads 0b0000_0001_0010_0011 (.sys 0x123) ∧ reads 0b0000_1111_1110_0000 (.sys 0xFE0) := by decide
theorem test_decode_address :
    reads 0b0001_1010_1011_1100 (.jp 0xABC) ∧ reads 0b0010_0011_0000_0001 (.call 0x301) ∧
    reads 0b1010_0010_1111_0000 (.ldI 0x2F0) ∧ reads 0b1011_0001_0010_0011 (.jpV0 0x123) := by decide
theorem test_decode_immediate :
    reads 0b0011_0011_0100_0010 (.seImm 3 0x42) ∧ reads 0b0100_0011_0100_0010 (.sneImm 3 0x42) ∧
    reads 0b0110_1010_0011_1100 (.ldImm 0xA 0x3C) ∧ reads 0b0111_0010_0010_0000 (.addImm 2 0x20) ∧
    reads 0b1100_0011_0000_1111 (.rnd 3 0x0F) := by decide
theorem test_decode_registers :
    reads 0b0101_1010_1011_0000 (.seReg 0xA 0xB) ∧ reads 0b1001_0001_0010_0000 (.sneReg 1 2) := by decide
theorem test_decode_alu :
    reads 0b1000_1010_1011_0000 (.ldReg 0xA 0xB) ∧ reads 0b1000_1010_1011_0001 (.or 0xA 0xB) ∧
    reads 0b1000_1010_1011_0010 (.and 0xA 0xB) ∧ reads 0b1000_1010_1011_0011 (.xor 0xA 0xB) ∧
    reads 0b1000_1010_1011_0100 (.addReg 0xA 0xB) ∧ reads 0b1000_1010_1011_0101 (.sub 0xA 0xB) ∧
    reads 0b1000_1010_1011_0110 (.shr 0xA 0xB) ∧ reads 0b1000_1010_1011_0111 (.subn 0xA 0xB) ∧
    reads 0b1000_1010_1011_1110 (.shl 0xA 0xB) := by decide
theorem test_decode_display_and_keys :
    reads 0b1101_0001_0010_1111 (.drw 1 2 15) ∧ reads 0b1110_0001_1001_1110 (.skp 1) ∧
    reads 0b1110_0001_1010_0001 (.sknp 1) := by decide
theorem test_decode_groupF :
    reads 0b1111_0001_0000_0111 (.ldFromDt 1) ∧ reads 0b1111_1111_0000_1010 (.ldK 0xF) ∧
    reads 0b1111_0001_0001_0101 (.ldDt 1) ∧ reads 0b1111_0001_0001_1000 (.ldSt 1) ∧
    reads 0b1111_0101_0001_1110 (.addI 5) ∧ reads 0b1111_1010_0010_1001 (.ldF 0xA) ∧
    reads 0b1111_0000_0011_0011 (.ldB 0) ∧ reads 0b1111_0010_0101_0101 (.store 2) ∧
    reads 0b1111_0001_0110_0101 (.load 1) := by decide
theorem test_decode_refuses_by_name :
    decode 0x5AB1 = .unmatched 0x5AB1 ∧ decode 0x8AB8 = .unmatched 0x8AB8 ∧ decode 0x912F = .unmatched 0x912F ∧
    decode 0xE19F = .unmatched 0xE19F ∧ decode 0xF000 = .unmatched 0xF000 := by decide
theorem test_decode_truncated :
    (match decodeBytes [0x12] with
      | .error .truncated => true
      | _ => false) = true := by decide

/-- The table's 35 rows, every operand bit 0. -/
def rows : List Instr :=
  let a : List Instr := [.cls, .ret, .sys 0, .jp 0, .call 0, .seImm 0 0, .sneImm 0 0, .seReg 0 0, .ldImm 0 0, .addImm 0 0]
  let b : List Instr := [.ldReg 0 0, .or 0 0, .and 0 0, .xor 0 0, .addReg 0 0, .sub 0 0, .shr 0 0, .subn 0 0, .shl 0 0]
  let c : List Instr := [.sneReg 0 0, .ldI 0, .jpV0 0, .rnd 0 0, .drw 0 0 0, .skp 0, .sknp 0, .ldFromDt 0, .ldK 0]
  let d : List Instr := [.ldDt 0, .ldSt 0, .addI 0, .ldF 0, .ldB 0, .store 0, .load 0]
  a ++ b ++ c ++ d

/-- Each row's match value is the word of its own constructor, and the host's two questions about it: it decodes, and
it runs as the first instruction after reset. -/
theorem test_table_rows_decode_and_run :
    rows.length = 35 ∧
    rows.all (fun i => encode i == tableMatch i && reads (tableMatch i).toNat i &&
      steps (State.reset.withFetchWord 16 (tableMatch i).toNat) (fun _ => true)) = true := by decide

/-! Reset, and the words the host places for the first step after it. -/

theorem test_reset_memory_wf : State.reset.mem.wf := by decide
theorem test_reset_step_slides : steps State.reset (fun t => t.pc == 2 && t.log == [.sysCall 0]) := by decide
theorem test_first_instruction_after_reset :
    steps (State.reset.withFetchWord 16 0x6A3C) (fun t => t.getV 0xA == 0x3C && t.pc == 2) := by decide
/-- A placed word is what the next fetch reads, high byte at the lower address (V1). -/
theorem test_withFetchWord_big_endian :
    (at200 0x1234).mem = [(0x200, 0x12), (0x201, 0x34)] ∧ (at200 0x1234).wordAtPc = 0x1234 := by decide

/-! Fetch unit and cycle engine (V1 to V15, V152, V160). -/

theorem test_V2_last_legal_fetch :
    steps (({ State.reset with pc := 0xFFE } : State).withFetchWord 16 0x6001)
      (fun t => t.getV 0 == 1 && t.pc == 0x1000) := by decide
theorem test_V3_fetch_fault_keeps_the_tick :
    steps { State.reset with pc := 0x1000, dt := 5 }
      (fun t => t.dt == 4 && t.fault == some (.fetchOutOfRange 0x1000)) := by decide
theorem test_V4_range_before_alignment :
    steps { State.reset with pc := 0xFFF } (fun t => t.fault == some (.fetchOutOfRange 0xFFF)) := by decide
theorem test_V5_odd_pc :
    steps { State.reset with pc := 0x201 } (fun t => t.fault == some (.misalignedFetch 0x201)) ∧
    steps (({ State.reset with pc := 0x201, params := { Config.params with oddPcFetch := .fetch } } : State).withFetchWord
      16 0x6001) (fun t => t.getV 0 == 1 && t.pc == 0x203) := by decide
theorem test_V6_timers : steps { at200 0x0000 with dt := 3, st := 1 } (fun t => t.dt == 2 && t.st == 0) := by decide
theorem test_V9_lowest_key :
    steps (pressing { at200 0 with latch := true, latchDest := 2, dt := 5, pc := 0x206 } [9, 4])
      (fun t => t.getV 2 == 4 && !t.latch && t.dt == 5 && t.pc == 0x206) := by decide
theorem test_V8_no_key :
    steps (pressing { at200 0 with latch := true, latchDest := 2, dt := 5, pc := 0x206 } [])
      (fun t => t.latch && t.dt == 5 && t.pc == 0x206) := by decide
theorem test_V11_unmatched : steps (at200 0x5121) (fun t => t.pc == 0x202 && t.log == [.unmatchedOpcode 0x5121]) := by
  decide
theorem test_V12_single_step :
    steps { at200 0x6001 with params := { Config.params with debugLevel := 3 } }
      (fun t => t.paused && t.getV 0 == 1 && t.pc == 0x202) := by decide
theorem test_V14_pause_ends :
    steps (pressing { at200 0x6001 with paused := true, params := { Config.params with debugLevel := 3, singleStepFallthrough := false } } [0])
      (fun t => !t.paused && t.getV 0 == 0 && t.pc == 0x200) ∧
    steps (pressing { at200 0x6001 with paused := true, params := { Config.params with debugLevel := 3, singleStepFallthrough := true } } [0])
      (fun t => t.paused && t.getV 0 == 1 && t.pc == 0x202) := by decide

/-! Control transfer (V20 to V41). -/

theorem test_V20_jp : steps (at200 0x1234) (fun t => t.pc == 0x234) := by decide
theorem test_V23_call :
    steps (at200 0x2300) (fun t => t.stack[0] == 0x200 && t.sp == 1 && t.pc == 0x300) := by decide
theorem test_V24_call_overflow :
    steps { at200 0x2300 with sp := 16 }
      (fun t => t.fault == some (.stackOverflow 0x200 0x2300) && t.sp == 16 && t.pc == 0x200) := by decide
theorem test_V25_ret :
    steps { at200 0x00EE with sp := 1, stack := State.reset.stack.set 0 0x240 }
      (fun t => t.sp == 0 && t.pc == 0x240 && t.stack[0] == 0x240) ∧
    steps { at200 0x00EE with sp := 1, stack := State.reset.stack.set 0 0x240, params := { Config.params with retResumeOffset := .two } }
      (fun t => t.pc == 0x242) := by decide
theorem test_V26_ret_empty :
    steps (at200 0x00EE) (fun t => t.pc == 0x200 && t.sp == 0 && t.log == [.emptyStackReturn]) := by decide
theorem test_V28_se : steps ((at200 0x3342).setV 3 0x42) (fun t => t.pc == 0x204) := by decide
theorem test_V29_se_no : steps ((at200 0x3342).setV 3 0x41) (fun t => t.pc == 0x202) := by decide
theorem test_V30_sne : steps ((at200 0x4342).setV 3 0x41) (fun t => t.pc == 0x204) := by decide
theorem test_V31_sne_no : steps ((at200 0x4342).setV 3 0x42) (fun t => t.pc == 0x202) := by decide
theorem test_V33_se_reg_same : steps ((at200 0x5110).setV 1 7) (fun t => t.pc == 0x204) := by decide
theorem test_V35_sne_reg : steps (((at200 0x9120).setV 1 7).setV 2 8) (fun t => t.pc == 0x204) := by decide
theorem test_V37_jpV0 : steps ((at200 0xB300).setV 0 0x10) (fun t => t.pc == 0x310) := by decide
theorem test_V38_jpV0_adds_v0 : steps ((at200 0xB1F0).setV 1 5) (fun t => t.pc == 0x1F0) := by decide

/-! Registers and ALU (V50 to V86). -/

theorem test_V50_ld : steps (at200 0x6A3C) (fun t => t.getV 0xA == 0x3C && t.pc == 0x202) := by decide
theorem test_V51_add_wraps :
    steps (((at200 0x7220).setV 2 0xF0).setV 0xF 0x77) (fun t => t.getV 2 == 0x10 && t.getV 0xF == 0x77) := by decide
theorem test_V54_ld_reg : steps ((at200 0x8010).setV 1 0x55) (fun t => t.getV 0 == 0x55) := by decide
theorem test_V55_or :
    steps ((((at200 0x8011).setV 0 0x0F).setV 1 0xF0).setV 0xF 0x77) (fun t => t.getV 0 == 0xFF && t.getV 0xF == 0x77) := by
  decide
theorem test_V56_and : steps (((at200 0x8012).setV 0 0x3C).setV 1 0x0F) (fun t => t.getV 0 == 0x0C) := by decide
theorem test_V57_xor : steps (((at200 0x8013).setV 0 0x3C).setV 1 0x0F) (fun t => t.getV 0 == 0x33) := by decide
theorem test_V59_add_carry :
    steps (((at200 0x8014).setV 0 250).setV 1 10) (fun t => t.getV 0 == 4 && t.getV 0xF == 1) := by decide
theorem test_V61_add_no_carry :
    steps (((at200 0x8014).setV 0 200).setV 1 55) (fun t => t.getV 0 == 255 && t.getV 0xF == 0) := by decide
theorem test_V67_sub_borrow :
    steps (((at200 0x8015).setV 0 3).setV 1 10) (fun t => t.getV 0 == 249 && t.getV 0xF == 0) := by decide
theorem test_V68_sub_equal :
    steps (((at200 0x8015).setV 0 5).setV 1 5) (fun t => t.getV 0 == 0 && t.getV 0xF == 1) := by decide
theorem test_V73_shr : steps ((at200 0x8006).setV 0 0xFF) (fun t => t.getV 0 == 0x7F && t.getV 0xF == 1) := by decide
theorem test_V74_shr_ignores_y :
    steps (((at200 0x8016).setV 0 0x04).setV 1 0x81) (fun t => t.getV 0 == 0x02 && t.getV 0xF == 0) := by decide
theorem test_V76_subn :
    steps (((at200 0x8017).setV 0 3).setV 1 10) (fun t => t.getV 0 == 7 && t.getV 0xF == 1) := by decide
theorem test_V77_subn_borrow :
    steps (((at200 0x8017).setV 0 10).setV 1 3) (fun t => t.getV 0 == 249 && t.getV 0xF == 0) := by decide
theorem test_V79_shl : steps ((at200 0x840E).setV 4 0x81) (fun t => t.getV 4 == 0x02 && t.getV 0xF == 1) := by decide
/-- V82: x = F, under both values of VF_DEST_ORDER. -/
theorem test_V82_shl_vf :
    steps (({ at200 0x8FFE with params := { Config.params with vfDestOrder := .flagLast } } : State).setV 0xF 0x81) (fun t => t.getV 0xF == 1) ∧
    steps (({ at200 0x8FFE with params := { Config.params with vfDestOrder := .resultLast } } : State).setV 0xF 0x81) (fun t => t.getV 0xF == 2) := by
  decide
theorem test_V83_rnd : steps (pressing (at200 0xC30F) [] 0xA7) (fun t => t.getV 3 == 0x07) := by decide

/-! Index register and memory (V90 to V111). -/

theorem test_V90_ld_i : steps (at200 0xA2F0) (fun t => t.i == 0x2F0) := by decide
theorem test_V92_add_i_wraps : steps (({ at200 0xF01E with i := 0xFFFF } : State).setV 0 1) (fun t => t.i == 0) := by decide
theorem test_V96_ld_f : steps ((at200 0xF029).setV 0 0xFF) (fun t => t.i == 1275) := by decide
theorem test_V97_bcd :
    steps (({ at200 0xF033 with i := 0x300 } : State).setV 0 234)
      (fun t => t.mem.readBytes 0x300 3 == [2, 3, 4] && t.i == 0x300) := by decide
theorem test_V102_bcd_fault :
    steps (({ at200 0xF033 with i := 0xFFE } : State).setV 0 123)
      (fun t => t.fault == some (.memOutOfRange 0x200 0xF033 0xFFE) && t.mem.read 0xFFE == 0 && t.pc == 0x200) := by decide
theorem test_V104_store :
    steps (((({ at200 0xF255 with i := 0x300 } : State).setV 0 1).setV 1 2).setV 2 3)
      (fun t => t.mem.readBytes 0x300 4 == [1, 2, 3, 0] && t.i == 0x300) := by decide
theorem test_V106_store_fault :
    steps { at200 0xF155 with i := 4095 } (fun t => t.fault == some (.memOutOfRange 0x200 0xF155 4095)) := by decide
theorem test_V109_load :
    steps (poke (poke (poke { at200 0xF265 with i := 0x300 } 0x300 1) 0x301 2) 0x302 3)
      (fun t => t.getV 0 == 1 && t.getV 1 == 2 && t.getV 2 == 3 && t.getV 3 == 0 && t.i == 0x300) := by decide
theorem test_V111_load_fault :
    steps { at200 0xF065 with i := 0xFFFF } (fun t => t.fault == some (.memOutOfRange 0x200 0xF065 0xFFFF)) := by decide

/-! Display (V123 to V134). -/

theorem test_V123_drw_clips :
    steps ((poke { at200 0xD011 with i := 0x300 } 0x300 0xFF).setV 0 60)
      (fun t => (t.fb.pixel 0 60 && t.fb.pixel 0 63) && (!t.fb.pixel 0 0 && !t.fb.pixel 0 59) && t.getV 0xF == 0) := by decide
theorem test_V128_drw_collides :
    steps (poke { at200 0xD011 with i := 0x300, fb := (List.range 8).foldl (fun f c => f.toggle 0 c) Framebuffer.blank } 0x300 0x0F)
      (fun t => t.fb.pixel 0 3 && !t.fb.pixel 0 4 && t.getV 0xF == 1) := by decide
theorem test_V134_cls :
    steps { at200 0x00E0 with fb := Framebuffer.blank.toggle 3 5 } (fun t => !t.fb.pixel 3 5) := by decide

/-! Keypad and timers (V140 to V150). -/

theorem test_V140_skp : steps (pressing ((at200 0xE19E).setV 1 5) [5]) (fun t => t.pc == 0x204) := by decide
theorem test_V142_skp_fault :
    steps ((at200 0xE19E).setV 1 0x10) (fun t => t.fault == some (.keyIndexOutOfRange 0x200 0xE19E 0x10)) := by decide
theorem test_V143_sknp : steps (pressing ((at200 0xE1A1).setV 1 5) []) (fun t => t.pc == 0x204) := by decide
theorem test_V144_sknp_pressed : steps (pressing ((at200 0xE1A1).setV 1 5) [5]) (fun t => t.pc == 0x202) := by decide
theorem test_V146_ld_from_dt : steps { at200 0xF307 with dt := 10 } (fun t => t.dt == 9 && t.getV 3 == 9) := by decide
theorem test_V148_ld_dt : steps ({ at200 0xF015 with dt := 7 } |>.setV 0 5) (fun t => t.dt == 5) := by decide
theorem test_V149_ld_st : steps ((at200 0xF018).setV 0 5) (fun t => t.st == 5) := by decide
theorem test_V150_ld_k :
    steps (pressing (at200 0xF10A) [3]) (fun t => t.latch && t.latchDest == 1 && t.pc == 0x202 && t.getV 1 == 0) := by decide

/-! Load (V162 to V166). -/

theorem test_V163_font_over_program :
    (match State.reset.load Config.standardFont [0xAA, 0xBB, 0xCC, 0xDD] 4 0x10 with
      | .next t => t.mem.readBytes 0x10 4 == [0x10, 0xF0, 0x10, 0xF0] && t.pc == 0x10
      | _ => false) = true := by decide
theorem test_V165_load_refused :
    (match State.reset.load Config.standardFont [] 100 4000 with
      | .refused r => r == .loadPastCapacity
      | _ => false) = true := by decide

/-! Witnesses: for every obligation with hypotheses, concrete values that meet them together, one per clause and at the
ends of the ranges. The name is the obligation's. -/

/-- A state on construction values at another pc and stack pointer, with every parameter given. -/
def anyState (pc : Word) (p : Config.Params) : State := { State.reset with pc := pc, params := p }

/-- Given values of every parameter: level 3, and the alternatives to this spec's choices. -/
def otherParams : Config.Params :=
  { oddPcFetch := .fetch, retResumeOffset := .two, vfDestOrder := .resultLast, spriteYModulus := .m32, debugLevel := 3,
    singleStepFallthrough := true }

theorem witness_DecodeOfEncodedBytesIsInstr : Instr.wf (.sys 0x0EF) = true ∧ Instr.wf (.drw 15 15 15) = true := by decide

theorem witness_EncodeOfDecodedIsWord : decode 0xFF65 = .instr (.load 15) ∧ decode 0x0000 = .instr (.sys 0) := by decide

theorem witness_DecodedWordMatchesItsTableRow : decode 0x8FFE = .instr (.shl 15 15) := by decide

/-- The fields of one word, and for each clause's condition a word that meets it. -/
theorem witness_OpcodeMapDecodesEveryPattern :
    (let w : Word := 0xDEF9
     w.toNat / 4096 = 0xD ∧ (0xE : Reg).val = w.toNat / 256 % 16 ∧ (0xF : Reg).val = w.toNat / 16 % 16 ∧
     w.toNat % 16 = 9 ∧ (9 : Height).val = 9 ∧ w.toNat % 256 = 0xF9 ∧ (0xF9 : Byte).toNat = 0xF9 ∧
     (0xEF9 : Addr).toNat = w.toNat % 4096) ∧
    (0x0FFF : Word).toNat / 4096 = 0x0 ∧ (0x0FFF : Word).toNat ≠ 0x00E0 ∧ (0x0FFF : Word).toNat ≠ 0x00EE ∧
    (0x5FF0 : Word).toNat % 16 = 0x0 ∧ (0x8FFE : Word).toNat % 16 = 0xE ∧ (0xEF9E : Word).toNat % 256 = 0x9E ∧
    (0xFF65 : Word).toNat % 256 = 0x65 := by decide

theorem witness_StepRunsTheDecodedInstruction :
    (at200 0x6A3C).isRunning ∧ (at200 0x6A3C).fetchOk ∧ decode (at200 0x6A3C).wordAtPc = .instr (.ldImm 0xA 0x3C) ∧
    ∃ t, exec (.ldImm 0xA 0x3C) (at200 0x6A3C).tickTimers = .next t := by
  refine ⟨by decide, by decide, by decide, _, rfl⟩

theorem witness_DispatchExecutesOrLogsUnmatched :
    decode 0x1ABC = .instr (.jp 0xABC) ∧ decode 0x5121 = .unmatched 0x5121 := by decide

theorem witness_StepOnUnmatchedWordIsALoggedNoOp :
    (at200 0x5121).isRunning ∧ (at200 0x5121).fetchOk ∧ decode (at200 0x5121).wordAtPc = .unmatched 0x5121 := by decide

theorem witness_FaultedCoreHasNoStep :
    ({ State.reset with fault := some (.stackOverflow 0x200 0x2200), latch := true } : State).fault =
      some (.stackOverflow 0x200 0x2200) := by decide

/-- Key 0, key 15 and no key, each with the latch set. -/
theorem witness_KeypressWaitCapturesLowestKey :
    (let s := pressing { State.reset with latch := true, latchDest := 2 } [0, 15]
     s.fault = none ∧ s.latch = true ∧ s.input.keypad[0] = true) ∧
    (let s := pressing { State.reset with latch := true, latchDest := 2 } [15]
     s.input.keypad[15] = true ∧ ∀ j : Fin 16, j < 15 → s.input.keypad[j.val] = false) ∧
    (let s := pressing { State.reset with latch := true } []
     ∀ k : Fin 16, s.input.keypad[k.val] = false) := by decide

theorem witness_SingleStepPauseEndsOnAnyKey :
    (let s := pressing { anyState 0x200 otherParams with paused := true } [15]
     s.fault = none ∧ s.latch = false ∧ s.paused = true ∧ s.input.keypad[15] = true ∧
     s.params.singleStepFallthrough = true) ∧
    (let s := pressing { anyState 0x200 { otherParams with singleStepFallthrough := false } with paused := true } [0]
     s.paused = true ∧ s.input.keypad[0] = true ∧ s.params.singleStepFallthrough = false) ∧
    (let s := pressing { anyState 0x200 otherParams with paused := true } []
     s.paused = true ∧ ∀ k : Fin 16, s.input.keypad[k.val] = false) := by decide

/-- A running FX07, a failing fetch, an FX15 after a fall-through, a wait, and a pause no key ends. -/
theorem witness_TimersTickOncePerUnblockedCall :
    ((at200 0xF007).reachesStep3 ∧ (at200 0xF007).fetchOk ∧ decode (at200 0xF007).wordAtPc = .instr (.ldFromDt 0) ∧
      ∃ t, step (at200 0xF007) = .next t) ∧
    ((anyState 0x1000 otherParams).reachesStep3 ∧ ¬ (anyState 0x1000 otherParams).fetchOk ∧
      ∃ t, step (anyState 0x1000 otherParams) = .next t) ∧
    (let s := pressing { at200 0xF015 with paused := true, params := otherParams } [15]
     (s.reachesStep3 ∧ s.paused = true ∧ s.fetchOk ∧ decode s.wordAtPc = .instr (.ldDt 0)) ∧ ∃ t, step s = .next t) ∧
    (¬ ({ at200 0 with latch := true } : State).reachesStep3 ∧ ∃ t, step ({ at200 0 with latch := true } : State) = .next t) ∧
    (let s := pressing { anyState 0x200 otherParams with paused := true } []
     ¬ s.reachesStep3 ∧ ∃ t, step s = .next t) :=
  ⟨⟨by decide, by decide, by decide, step_next (by decide)⟩, ⟨by decide, by decide, step_next (by decide)⟩,
    ⟨by decide, step_next (by decide)⟩, ⟨by decide, step_next (by decide)⟩, by decide, step_next (by decide)⟩

/-- pc at 4095, at 4093 under each value of ODD_PC_FETCH, and at 4094. -/
theorem witness_FetchChecksThenReadsBigEndian :
    (anyState 4095 otherParams).pc.toNat > 4094 ∧
    ((anyState 4093 Config.params).pc.toNat ≤ 4094 ∧ (anyState 4093 Config.params).pc.toNat % 2 = 1 ∧
      (anyState 4093 Config.params).params.oddPcFetch = .fault) ∧
    ((anyState 4093 otherParams).pc.toNat ≤ 4094 ∧ (anyState 4093 otherParams).params.oddPcFetch = .fetch) ∧
    ((anyState 4094 otherParams).pc.toNat ≤ 4094 ∧ (anyState 4094 otherParams).pc.toNat % 2 = 0) := by decide

/-- A running call at level 3, one that faults there, and a wait. -/
theorem witness_PauseAndResponseAtStepEight :
    ((anyState 0x200 otherParams).reachesStep3 ∧ otherParams.debugLevel = 3 ∧
      ∃ t, step (anyState 0x200 otherParams) = .next t ∧ t.fault = none) ∧
    (∃ t, step (anyState 0x1000 otherParams) = .next t ∧ t.fault = some (.fetchOutOfRange 0x1000)) ∧
    (¬ ({ at200 0 with latch := true } : State).reachesStep3 ∧ ∃ t, step ({ at200 0 with latch := true } : State) = .next t) :=
  ⟨⟨by decide, by decide, _, rfl, by decide⟩, ⟨_, rfl, by decide⟩, by decide, step_next (by decide)⟩

/-- Each engine state, each with its row's condition. -/
theorem witness_EngineStateTransitions :
    ({ State.reset with fault := some (.fetchOutOfRange 0x1000) } : State).engine = .faulted ∧
    (let s := pressing { State.reset with latch := true } []
     (s.engine = .waitingForKey ∧ ∀ k : Fin 16, s.input.keypad[k.val] = false) ∧ ∃ t, step s = .next t) ∧
    (let s := pressing { State.reset with latch := true, paused := true } [15]
     (s.engine = .waitingForKey ∧ s.input.keypad[15] = true) ∧ ∃ t, step s = .next t) ∧
    (let s := pressing { anyState 0 otherParams with paused := true } []
     (s.engine = .singleStepPaused ∧ ∀ k : Fin 16, s.input.keypad[k.val] = false) ∧ ∃ t, step s = .next t) ∧
    (let s := pressing { anyState 0 { otherParams with singleStepFallthrough := false } with paused := true } [0]
     (s.engine = .singleStepPaused ∧ s.input.keypad[0] = true ∧ s.params.singleStepFallthrough = false) ∧
       ∃ t, step s = .next t) ∧
    (let s := pressing { anyState 0 otherParams with paused := true } [15]
     (s.engine = .singleStepPaused ∧ s.input.keypad[15] = true ∧ s.params.singleStepFallthrough = true) ∧
       ∃ t, step s = .next t) ∧
    (let s := anyState 4095 otherParams
     (s.engine = .running ∧ ¬ s.fetchOk ∧ s.pc.toNat > 4094) ∧ ∃ t, step s = .next t) ∧
    (let s := anyState 4093 Config.params
     (s.engine = .running ∧ s.pc.toNat ≤ 4094 ∧ s.pc.toNat % 2 = 1 ∧ s.params.oddPcFetch = .fault) ∧
       ∃ t, step s = .next t) ∧
    (let s := at200 0xFF0A
     (s.engine = .running ∧ s.fetchOk ∧ decode s.wordAtPc = .instr (.ldK 15)) ∧ ∃ t, step s = .next t) ∧
    (let s := at200 0x1200
     (s.engine = .running ∧ s.fetchOk ∧ decode s.wordAtPc = .instr (.jp 0x200)) ∧ ∃ t, step s = .next t) :=
  ⟨by decide, ⟨by decide, step_next (by decide)⟩, ⟨by decide, step_next (by decide)⟩, ⟨by decide, step_next (by decide)⟩,
    ⟨by decide, step_next (by decide)⟩, ⟨by decide, step_next (by decide)⟩, ⟨by decide, step_next (by decide)⟩,
    ⟨by decide, step_next (by decide)⟩, ⟨by decide, step_next (by decide)⟩, by decide, step_next (by decide)⟩

theorem witness_DebugLevelsBelowThreeGiveOneStep : (0 : Config.DebugLevel) ≠ 3 ∧ (2 : Config.DebugLevel) ≠ 3 := by decide

theorem witness_StepKeepsTheParameters : ∃ t, step (anyState 0x200 otherParams) = .next t := step_next (by decide)

/-- Two requests with one keypad, and two with one random byte at a RND word. -/
theorem witness_CycleInputReadOnlyByItsReaders :
    (decode (at200 0x1200).wordAtPc = .instr (.jp 0x200) ∧
      (let c : CycleInput := { keypad := Vector.replicate 16 true, rnd := 1 }
       let d : CycleInput := { keypad := Vector.replicate 16 true, rnd := 2 }
       c.keypad = d.keypad ∧ c ≠ d)) ∧
    ((at200 0xC30F).isRunning ∧ decode (at200 0xC30F).wordAtPc = .instr (.rnd 3 0x0F) ∧
      (let c : CycleInput := { keypad := Vector.replicate 16 true, rnd := 1 }
       let d : CycleInput := { keypad := Vector.replicate 16 false, rnd := 1 }
       c.rnd = d.rnd ∧ c ≠ d)) := by decide

/-- Two states that differ, in a slot no longer in use, and have a slot in use. -/
theorem witness_StaleStackSlotsAreUnobservable :
    (let s : State := { State.reset with sp := 1, stack := State.reset.stack.set 0 0x240 }
     let t : State := { s with stack := s.stack.set 1 0x333 }
     t = { s with stack := t.stack } ∧ t.stack ≠ s.stack ∧ s.stack[0] = t.stack[0]) ∧
    agreeButStale { State.reset with sp := 1, stack := State.reset.stack.set 0 0x240 }
      { State.reset with sp := 1, stack := (State.reset.stack.set 0 0x240).set 1 0x333 } := by
  refine ⟨⟨rfl, by decide, by decide⟩, rfl, fun k h => ?_⟩
  have hk : k < 1 := h
  have : k = 0 := by omega
  subst this
  rfl

/-- The invariant's ends: pc at 0x10FE, a return address at 4094, level 3 paused. -/
theorem witness_StepKeepsTheStateInvariant :
    (let s : State := { anyState 0x10FE otherParams with paused := true, sp := 1, stack := State.reset.stack.set 0 4094 }
     s.Inv ∧ ∃ t, step s = .next t) := by
  refine ⟨⟨by decide, by decide, by decide, fun k h => ?_, by simp [anyState, State.reset], by simp [anyState, State.reset]⟩,
    step_next (by decide)⟩
  have hk : k < 1 := h
  have : k = 0 := by omega
  subst this
  exact Nat.le_of_eq rfl

theorem witness_LoadKeepsTheStateInvariant :
    State.reset.Inv ∧ ∃ t, State.reset.load Config.standardFont [1, 2, 3, 4] 4 4092 = .next t :=
  ⟨⟨by decide, by decide, by decide, fun _ h => absurd h (by simp [State.reset]), by simp [State.reset],
    by simp [State.reset]⟩, _, rfl⟩

theorem witness_RegistersChangedOnlyByTheirWriters :
    ∃ t, exec (.ldImm 15 0x3C) State.reset = .next t ∧ t.getV 15 ≠ State.reset.getV 15 := ⟨_, rfl, by decide⟩

/-- One instruction per element that changes it. -/
theorem witness_StateElementsChangedOnlyByTheirWriters :
    (∃ t, exec (.ldI 5) State.reset = .next t ∧ t.i ≠ State.reset.i) ∧
    (∃ t, exec (.call 5) (at200 0) = .next t ∧ t.sp ≠ (at200 0).sp ∧ t.stack ≠ (at200 0).stack) ∧
    (∃ t, exec (.ldDt 1) (State.reset.setV 1 9) = .next t ∧ t.dt ≠ 0) ∧
    (∃ t, exec (.ldSt 1) (State.reset.setV 1 9) = .next t ∧ t.st ≠ 0) ∧
    (∃ t, exec .cls { State.reset with fb := Framebuffer.blank.toggle 0 0 } = .next t ∧
      t.fb ≠ Framebuffer.blank.toggle 0 0) ∧
    (∃ t, exec (.ldK 7) State.reset = .next t ∧ t.latch ≠ false ∧ t.latchDest ≠ 0) ∧
    (∃ t, exec .ret State.reset = .next t ∧ t.log ≠ []) := by
  refine ⟨⟨_, rfl, by decide⟩, ⟨_, rfl, by decide⟩, ⟨_, rfl, by decide⟩, ⟨_, rfl, by decide⟩, ⟨_, rfl, by decide⟩,
    ⟨_, rfl, by decide⟩, ⟨_, rfl, by decide⟩⟩

/-- The bytes just below and just above FX55's, and any byte for an instruction that stores none. -/
theorem witness_MemoryChangedOnlyWhereStored :
    (let s : State := { State.reset with i := 0x300 }
     ¬ (s.i.toNat ≤ 0x2FF ∧ 0x2FF < s.i.toNat + storesBytes (.store 15)) ∧
     ¬ (s.i.toNat ≤ 0x310 ∧ 0x310 < s.i.toNat + storesBytes (.store 15)) ∧
     ¬ (s.i.toNat ≤ 0x300 ∧ 0x300 < s.i.toNat + storesBytes (.load 15))) ∧
    ∃ t, exec (.store 15) { State.reset with i := 0x300 } = .next t :=
  ⟨by decide, exec_next _ _⟩

/-- A fault, an instruction that is no skip, a skip taken and one not taken, and a key skip at line 15. -/
theorem witness_PcAdvancesUnlessRedirected :
    (∃ t, exec (.call 0x300) { State.reset with sp := 16 } = .next t ∧ t.fault ≠ none) ∧
    (∃ t, exec (.ldI 5) State.reset = .next t ∧ t.fault = none ∧ redirects (.ldI 5) = false ∧
      ¬ State.reset.skipHolds (.ldI 5)) ∧
    (∃ t, exec (.seImm 0 0) State.reset = .next t ∧ t.fault = none ∧ State.reset.skipHolds (.seImm 0 0)) ∧
    (∃ t, exec (.sneImm 0 0) State.reset = .next t ∧ t.fault = none ∧ ¬ State.reset.skipHolds (.sneImm 0 0)) ∧
    (∃ t, exec (.skp 1) (pressing (State.reset.setV 1 15) [15]) = .next t ∧ t.fault = none ∧
      (pressing (State.reset.setV 1 15) [15]).skipHolds (.skp 1)) := by
  refine ⟨⟨_, rfl, by decide⟩, ⟨_, rfl, rfl, rfl, id⟩, ⟨_, rfl, rfl, rfl⟩, ⟨_, rfl, rfl, fun h => h rfl⟩,
    ⟨_, rfl, by decide, 15, by decide, by decide⟩⟩

/-- SP at 16, 15, 0 and 1. -/
theorem witness_PushAndPopAreTheStackPrimitives :
    ({ State.reset with sp := 16 } : State).sp.val = 16 ∧ ({ State.reset with sp := 15 } : State).sp.val < 16 ∧
    State.reset.sp.val = 0 ∧ 0 < ({ State.reset with sp := 1 } : State).sp.val := by decide

theorem witness_CanonicalMemoryIsExtensional : Memory.wf [(0, 1), (4095, 2)] := by decide

/-- Faults of the fetch at pc 4095 (odd, the range first) and 4093, an instruction's fault, and a call out of the pause. -/
theorem witness_FaultsArePrecise :
    (∃ t, step (anyState 4095 Config.params) = .next t ∧ t.fault = some (.fetchOutOfRange 4095)) ∧
    (∃ t, step (anyState 4093 Config.params) = .next t ∧ t.fault = some (.misalignedFetch 4093)) ∧
    (let s := { at200 0x2300 with sp := 16 }
     s.fetchOk ∧ ∃ t, step s = .next t ∧ t.fault = some (.stackOverflow 0x200 0x2300)) ∧
    (let s := pressing { anyState 4095 otherParams with paused := true } [15]
     s.reachesStep3 ∧ s.pc.toNat > 4094) ∧
    ((anyState 4093 Config.params).reachesStep3 ∧ (anyState 4093 Config.params).pc.toNat ≤ 4094 ∧
      (anyState 4093 Config.params).pc.toNat % 2 = 1 ∧ (anyState 4093 Config.params).params.oddPcFetch = .fault) :=
  ⟨⟨_, rfl, by decide⟩, ⟨_, rfl, by decide⟩, ⟨by decide, _, rfl, by decide⟩, by decide, by decide⟩

/-- One fault of each reason an instruction raises. -/
theorem witness_FaultsRaisedOnlyForTheirCause :
    (∃ t, exec (.call 0x300) { State.reset with sp := 16 } = .next t ∧ t.fault = some (.stackOverflow 0 0x2300)) ∧
    (∃ t, exec (.ldB 0) { State.reset with i := 4094 } = .next t ∧ t.fault = some (.memOutOfRange 0 0xF033 4094)) ∧
    (∃ t, exec (.skp 1) (State.reset.setV 1 16) = .next t ∧ t.fault = some (.keyIndexOutOfRange 0 0xE19E 16)) :=
  ⟨⟨_, rfl, by decide⟩, ⟨_, rfl, by decide⟩, ⟨_, rfl, by decide⟩⟩

/-- A load that ends at the top of memory, and addresses in it and below it. -/
theorem witness_LoadWritesProgramThenFontThenPc :
    State.reset.mem.wf ∧ State.reset.loadOpen = true ∧ 4092 + 4 ≤ 4096 ∧ 4 ≤ 3584 ∧
    4 ≤ ([1, 2, 3, 4] : List Byte).length ∧ 80 ≤ 4092 + 3 ∧ 80 ≤ 4091 ∧ 4091 < 4092 := by decide

theorem witness_LoadRefusedOnBrokenPrecondition :
    4000 + 97 > 4096 ∧ 3585 > 3584 ∧ ({ State.reset with loadOpen := false } : State).loadOpen = false ∧
    (∃ t, State.reset.load Config.standardFont [] 0 0 = .next t) ∧ ∃ t, step State.reset = .next t :=
  ⟨by decide, by decide, by decide, ⟨_, rfl⟩, step_next (by decide)⟩

theorem witness_CallsBeforeLoadSlideToTheFault : 0 ≤ 2048 ∧ 2048 ≤ 2048 := by decide

theorem witness_SysIsALoggedNoOp : (0xFFF : Addr) ≠ 0x0E0 ∧ (0xFFF : Addr) ≠ 0x0EE := by decide

theorem witness_CallPushesItsOwnAddress :
    ({ State.reset with sp := 15 } : State).sp.val < 16 ∧ ({ State.reset with sp := 16 } : State).sp.val = 16 := by decide

theorem witness_RetResumesAtPoppedAddress :
    State.reset.sp.val = 0 ∧ 0 < ({ State.reset with sp := 16 } : State).sp.val ∧
    Config.params.retResumeOffset = .zero ∧ otherParams.retResumeOffset = .two := by decide

/-- The state between them is the one after a nested CALL and RET, which left a stale slot. -/
theorem witness_CallThenRetRestoresTheStackPointer :
    ∃ t m u : State, exec (.call 0x300) (at200 0) = .next t ∧ (at200 0).sp.val < 16 ∧ exec (.call 0x400) t = .next m ∧
      exec .ret m = .next u ∧ u.sp = t.sp ∧ (∀ k, (h : k < 16) → k < t.sp.val → u.stack[k] = t.stack[k]) ∧
      u.stack ≠ t.stack :=
  ⟨_, _, _, rfl, by decide, rfl, rfl, rfl, by decide, by decide⟩

/-- FX0A sets the latch; key 15 clears it, and no key leaves it; and a load. -/
theorem witness_LatchIsTheOnlyInterruptSource :
    (∃ t, step (at200 0xFF0A) = .next t ∧ (at200 0xFF0A).latch = false ∧ t.latch = true) ∧
    (let s := pressing { State.reset with latch := true } [15]
     s.latch = true ∧ ∃ t, step s = .next t ∧ t.latch = false) ∧
    (let s := pressing { State.reset with latch := true } []
     s.latch = true ∧ ∃ t, step s = .next t ∧ t.latch = true) ∧
    (∃ t, State.reset.load Config.standardFont [] 0 0 = .next t) :=
  ⟨⟨_, rfl, rfl, by decide⟩, ⟨rfl, _, rfl, by decide⟩, ⟨rfl, _, rfl, by decide⟩, ⟨_, rfl⟩⟩

/-- States that differ in a timer, at a jump and at FX07. -/
theorem witness_TimersActOnlyWhereRead :
    (let t : State := { at200 0xF307 with st := 9 }
     t = { at200 0xF307 with st := t.st } ∧ t ≠ at200 0xF307) ∧
    (let t : State := { at200 0x1200 with dt := 9, st := 1 }
     t = { at200 0x1200 with dt := t.dt, st := t.st } ∧ decode (at200 0x1200).wordAtPc = .instr (.jp 0x200)) ∧
    (let t : State := { at200 0xF307 with dt := 9 }
     t = { at200 0xF307 with dt := t.dt, st := t.st } ∧ decode (at200 0xF307).wordAtPc = .instr (.ldFromDt 3)) :=
  ⟨⟨rfl, fun h => absurd (congrArg State.st h) (by decide)⟩, ⟨rfl, by decide⟩, ⟨rfl, by decide⟩⟩

theorem witness_ResultAndFlagAreTwoOrderedWrites :
    (anyState 0 { otherParams with vfDestOrder := .flagLast }).params.vfDestOrder = .flagLast ∧
    (anyState 0 otherParams).params.vfDestOrder = .resultLast ∧ (14 : Reg) ≠ vf := by decide

/-- Sums 255 and 256, and differences with and without a borrow; a destination that is VF and one that is not, under both
orders. -/
theorem witness_AddAndSubtractSetCarryOrNoBorrow :
    (let s := (State.reset.setV 0 255).setV 1 0
     ¬ (s.getV 0).toNat + (s.getV 1).toNat > 255) ∧
    (let s := (State.reset.setV 0 255).setV 1 1
     (s.getV 0).toNat + (s.getV 1).toNat > 255) ∧
    (let s := (State.reset.setV 0 5).setV 1 5
     (s.getV 0).toNat ≥ (s.getV 1).toNat ∧ (s.getV 1).toNat ≥ (s.getV 0).toNat) ∧
    (let s := (State.reset.setV 0 5).setV 1 6
     ¬ (s.getV 0).toNat ≥ (s.getV 1).toNat ∧ (s.getV 1).toNat ≥ (s.getV 0).toNat) ∧
    (0 : Reg) ≠ vf ∧ (15 : Reg) = vf ∧ (anyState 0 { otherParams with vfDestOrder := .flagLast }).params.vfDestOrder = .flagLast ∧
    (anyState 0 otherParams).params.vfDestOrder = .resultLast := by decide

/-- Bytes whose end bits are 1 and 0; a destination that is VF and one that is not, under both orders. -/
theorem witness_ShiftsSetTheBitShiftedOut :
    (let s := (State.reset.setV 0 0x81).setV 1 0x7E
     (s.getV 0).toNat % 2 = 1 ∧ (s.getV 0).toNat / 128 = 1 ∧ (s.getV 1).toNat % 2 = 0 ∧ (s.getV 1).toNat / 128 = 0) ∧
    (0 : Reg) ≠ vf ∧ (15 : Reg) = vf ∧
    (anyState 0 { otherParams with vfDestOrder := .flagLast }).params.vfDestOrder = .flagLast ∧
    (anyState 0 otherParams).params.vfDestOrder = .resultLast := by decide

/-- The last address in range and the first one out of it. -/
theorem witness_BcdStoresThreeDecimalDigits :
    State.reset.mem.wf ∧ ({ State.reset with i := 4093 } : State).i.toNat + 2 ≤ 4095 ∧
    ({ State.reset with i := 4094 } : State).i.toNat + 2 > 4095 := by decide

theorem witness_StoreWritesRegistersFromIndex :
    State.reset.mem.wf ∧ ({ State.reset with i := 4080 } : State).i.toNat + (15 : Reg).val ≤ 4095 ∧
    ({ State.reset with i := 4081 } : State).i.toNat + (15 : Reg).val > 4095 := by decide

theorem witness_LoadReadsRegistersFromIndex :
    ({ State.reset with i := 4095 } : State).i.toNat + (0 : Reg).val ≤ 4095 ∧
    ({ State.reset with i := 0xFFFF } : State).i.toNat + (0 : Reg).val > 4095 := by decide

/-- u is the state after the store with its registers cleared (E10). -/
theorem witness_StoreThenLoadRestoresRegisters :
    ∃ t u : State, exec (.store 2) { State.reset with i := 0x400 } = .next t ∧ u.i = t.i ∧ u.mem = t.mem ∧
      State.reset.mem.wf ∧ ({ State.reset with i := 0x400 } : State).i.toNat + (2 : Reg).val ≤ 4095 :=
  ⟨_, _, rfl, rfl, rfl, by decide, by decide⟩

/-- A sprite of 15 bytes that ends at 4095, one of no bytes, one a byte too far; a covered and an uncovered pixel. -/
theorem witness_DrawXorsTheSpriteAndFlagsCollision :
    ({ State.reset with i := 4081 } : State).i.toNat + (15 : Height).val - 1 ≤ 4095 ∧ (0 : Height).val = 0 ∧
    (1 ≤ (15 : Height).val ∧ ({ State.reset with i := 4082 } : State).i.toNat + (15 : Height).val - 1 > 4095) ∧
    (poke { State.reset with i := 0x300 } 0x300 0x81).spriteCovers 0 1 1 0 7 ∧
    ¬ (poke { State.reset with i := 0x300 } 0x300 0x81).spriteCovers 0 1 1 0 8 ∧
    (Framebuffer.blank.toggle 0 7).pixel 0 7 = true := by
  refine ⟨by decide, by decide, by decide, ⟨0, 7, by decide, by decide, by decide, by decide, by decide⟩, ?_, by decide⟩
  rintro ⟨r, j, hr, hj, -, hcol, -⟩
  have hx : ((poke { State.reset with i := 0x300 } 0x300 0x81).getV 0).toNat % 64 = 0 := by decide
  omega

theorem witness_DrawTwiceRestoresTheFramebuffer :
    (14 : Reg) ≠ vf ∧ (0 : Reg) ≠ vf ∧ ({ State.reset with i := 4095 } : State).i.toNat + (1 : Height).val - 1 ≤ 4095 := by
  decide

/-- V[x] at 15 and at 16. -/
theorem witness_KeySkipsTestTheSelectedLine :
    ((State.reset.setV 1 15).getV 1).toNat = (15 : Fin 16).val ∧ ((State.reset.setV 1 16).getV 1).toNat > 15 := by decide

end Sys2Proof.Tests
end

/-! What the instructions with more than one outcome can do, each said once. -/

namespace Sys2Proof.Machine

section Outcomes

variable {s t : State}

/-- CALL pushes its own address and jumps, or faults on a full stack (R122, R224). -/
theorem exec_call_cases {nnn : Addr} (h : exec (.call nnn) s = .next t) :
    (∃ hlt : s.sp.val < 16,
      t = ({ s with stack := s.stack.set s.sp.val s.pc, sp := ⟨s.sp.val + 1, by omega⟩ } : State).jumpTo
        (zextAddr nnn)) ∨
    (s.sp.val = 16 ∧ t = s.raiseFault (.stackOverflow s.pc (encode (.call nnn)))) := by
  simp only [exec, execCall] at h
  split at h
  · rename_i u hu
    obtain ⟨hlt, rfl⟩ := State.push_eq_some hu
    cases h
    exact .inl ⟨hlt, rfl⟩
  · rename_i hu
    cases h
    exact .inr ⟨State.push_eq_none hu, rfl⟩

/-- RET resumes at the popped address, or logs on an empty stack (R123). -/
theorem exec_ret_cases (h : exec .ret s = .next t) :
    (∃ hpos : 0 < s.sp.val,
      t = ({ s with sp := ⟨s.sp.val - 1, by omega⟩ } : State).jumpTo
        (s.stack[s.sp.val - 1]'(by omega) + s.params.retResumeOffset.toWord)) ∨
    (s.sp.val = 0 ∧ t = s.logEvent .emptyStackReturn) := by
  simp only [exec, execRet] at h
  split at h
  · rename_i a u hu
    obtain ⟨hpos, rfl, rfl⟩ := State.pop_eq_some hu
    cases h
    exact .inl ⟨hpos, rfl⟩
  · rename_i hu
    cases h
    exact .inr ⟨State.pop_eq_none hu, rfl⟩

/-- DRW draws and sets VF, or faults on its range (R191, R225). -/
theorem exec_drw_cases {x y : Reg} {n : Height} (h : exec (.drw x y n) s = .next t) :
    ((n.val = 0 ∨ s.dataInRange n.val) ∧
      t = (({ s with fb := (s.drawn x y n).fb } : State).setV vf (flagByte (s.drawn x y n).hit)).advance) ∨
    (1 ≤ n.val ∧ ¬ s.dataInRange n.val ∧ t = s.raiseFault (.memOutOfRange s.pc (encode (.drw x y n)) s.i)) := by
  simp only [exec, execDrw] at h
  split at h
  · cases h
    exact .inr ⟨‹_ ∧ _›.1, ‹_ ∧ _›.2, rfl⟩
  · cases h
    exact .inl ⟨by omega, rfl⟩

/-- SKP skips on a pressed line, or faults on a line above 15 (R202, R226). -/
theorem exec_skp_cases {x : Reg} (h : exec (.skp x) s = .next t) :
    (∃ hlt : (s.getV x).toNat < 16, t = (s.skipIf s.input.keypad[(s.getV x).toNat]).advance) ∨
    (15 < (s.getV x).toNat ∧ t = s.raiseFault (.keyIndexOutOfRange s.pc (encode (.skp x)) (s.getV x))) := by
  simp only [exec, execSkp] at h
  split at h
  · rename_i hp
    obtain ⟨hlt, rfl⟩ := State.keyLine_eq_some hp
    cases h
    exact .inl ⟨hlt, rfl⟩
  · rename_i hp
    cases h
    exact .inr ⟨State.keyLine_eq_none hp, rfl⟩

/-- SKNP skips on a released line, or faults on a line above 15 (R203, R226). -/
theorem exec_sknp_cases {x : Reg} (h : exec (.sknp x) s = .next t) :
    (∃ hlt : (s.getV x).toNat < 16, t = (s.skipIf (!s.input.keypad[(s.getV x).toNat])).advance) ∨
    (15 < (s.getV x).toNat ∧ t = s.raiseFault (.keyIndexOutOfRange s.pc (encode (.sknp x)) (s.getV x))) := by
  simp only [exec, execSknp] at h
  split at h
  · rename_i hp
    obtain ⟨hlt, rfl⟩ := State.keyLine_eq_some hp
    cases h
    exact .inl ⟨hlt, rfl⟩
  · rename_i hp
    cases h
    exact .inr ⟨State.keyLine_eq_none hp, rfl⟩

/-- FX33 stores the three digits, or faults on its range (R173, R225). -/
theorem exec_ldB_cases {x : Reg} (h : exec (.ldB x) s = .next t) :
    (s.dataInRange 3 ∧
      t = ({ s with mem := s.mem.writeBytes (s.dataAddr 0) (bcdDigits (s.getV x)) } : State).advance) ∨
    (¬ s.dataInRange 3 ∧ t = s.raiseFault (.memOutOfRange s.pc (encode (.ldB x)) s.i)) := by
  simp only [exec, execLdB] at h
  split at h <;> cases h
  · exact .inl ⟨‹_›, rfl⟩
  · exact .inr ⟨‹_›, rfl⟩

/-- FX55 stores the registers, or faults on its range (R174, R225). -/
theorem exec_store_cases {x : Reg} (h : exec (.store x) s = .next t) :
    (s.dataInRange (x.val + 1) ∧
      t = ({ s with mem := s.mem.writeBytes (s.dataAddr 0) (s.regsUpTo x) } : State).advance) ∨
    (¬ s.dataInRange (x.val + 1) ∧ t = s.raiseFault (.memOutOfRange s.pc (encode (.store x)) s.i)) := by
  simp only [exec, execStore] at h
  split at h <;> cases h
  · exact .inl ⟨‹_›, rfl⟩
  · exact .inr ⟨‹_›, rfl⟩

/-- FX65 loads the registers, or faults on its range (R175, R225). -/
theorem exec_load_cases {x : Reg} (h : exec (.load x) s = .next t) :
    (s.dataInRange (x.val + 1) ∧
      t = ({ s with v := writeRegs s.v 0 (s.mem.readBytes (s.dataAddr 0) (x.val + 1)) } : State).advance) ∨
    (¬ s.dataInRange (x.val + 1) ∧ t = s.raiseFault (.memOutOfRange s.pc (encode (.load x)) s.i)) := by
  simp only [exec, execLoad] at h
  split at h <;> cases h
  · exact .inl ⟨‹_›, rfl⟩
  · exact .inr ⟨‹_›, rfl⟩

end Outcomes

/-! The elements an instruction does not write (R24, R32 to R35, R43). -/

/-- Settles O27: case by instruction, each outcome changes the fields of its own update and no other; RET on an empty
stack is the one outcome that logs beside SYS. -/
theorem stateElementsChangedOnlyByTheirWriters : Obligations.StateElementsChangedOnlyByTheirWriters := by
  unfold Obligations.StateElementsChangedOnlyByTheirWriters
  intro i s t h
  cases i with
  | call nnn => rcases exec_call_cases h with ⟨-, rfl⟩ | ⟨-, rfl⟩ <;> simp
  | ret =>
    rcases exec_ret_cases h with ⟨-, rfl⟩ | ⟨hsp, rfl⟩
    · simp
    · have hempty : s.sp = 0 := Fin.ext hsp
      simp [hempty]
  | drw x y n => rcases exec_drw_cases h with ⟨-, rfl⟩ | ⟨-, -, rfl⟩ <;> simp
  | skp x => rcases exec_skp_cases h with ⟨-, rfl⟩ | ⟨-, rfl⟩ <;> simp
  | sknp x => rcases exec_sknp_cases h with ⟨-, rfl⟩ | ⟨-, rfl⟩ <;> simp
  | ldB x => rcases exec_ldB_cases h with ⟨-, rfl⟩ | ⟨-, rfl⟩ <;> simp
  | store x => rcases exec_store_cases h with ⟨-, rfl⟩ | ⟨-, rfl⟩ <;> simp
  | load x => rcases exec_load_cases h with ⟨-, rfl⟩ | ⟨-, rfl⟩ <;> simp
  | _ => cases h; simp

/-! The two stack primitives (R31). -/

theorem State.push_of_lt {s : State} (a : Word) (h : s.sp.val < 16) :
    s.push a = some { s with stack := s.stack.set s.sp.val a, sp := ⟨s.sp.val + 1, by omega⟩ } :=
  dif_pos h

theorem State.push_of_full {s : State} (a : Word) (h : s.sp.val = 16) : s.push a = none :=
  dif_neg (by omega)

theorem State.pop_of_pos {s : State} (h : 0 < s.sp.val) :
    s.pop = some (s.stack[s.sp.val - 1]'(by omega), { s with sp := ⟨s.sp.val - 1, by omega⟩ }) :=
  dif_pos h

theorem State.pop_of_empty {s : State} (h : s.sp.val = 0) : s.pop = none :=
  dif_neg (by omega)

/-! Registers (R23). -/

/-- The result and flag write leaves every register but its destination and VF (R141). -/
theorem State.getV_writeResultAndFlag_of_ne (s : State) {x q : Reg} (r f : Byte) (h : ¬ (q = x ∨ q = vf)) :
    (s.writeResultAndFlag x r f).getV q = s.getV q := by
  rw [State.getV_writeResultAndFlag, if_neg fun hv => h (.inr hv), if_neg fun hx => h (.inl hx)]

/-- A block transfer into V0 to V[x] leaves the registers above V[x] (R175). -/
theorem getElem_writeRegs_of_length_le (v : Vector Byte 16) (bs : List Byte) (q : Reg) (h : bs.length ≤ q.val) :
    (writeRegs v 0 bs)[q.val] = v[q.val] := by
  rw [getElem_writeRegs, dif_neg (by omega)]

/-- An instruction leaves every register it is not listed to write (R23). -/
theorem exec_getV_of_not_writesReg {i : Instr} {s t : State} {r : Reg} (h : exec i s = .next t)
    (hr : ¬ writesReg i r) : t.getV r = s.getV r := by
  cases i with
  | ldImm | addImm | ldReg | or | and | xor | rnd | ldFromDt => cases h; exact State.getV_setV_of_ne _ _ hr
  | addReg | sub | subn | shr | shl => cases h; exact State.getV_writeResultAndFlag_of_ne _ _ _ hr
  | drw x y n =>
    rcases exec_drw_cases h with ⟨-, rfl⟩ | ⟨-, -, rfl⟩
    · exact State.getV_setV_of_ne _ _ hr
    · rfl
  | load x =>
    rcases exec_load_cases h with ⟨-, rfl⟩ | ⟨-, rfl⟩
    · have hx : x < r := not_le.1 hr
      exact getElem_writeRegs_of_length_le _ _ _ (by rw [Memory.length_readBytes]; exact hx)
    · rfl
  | seImm | sneImm | seReg | sneReg => cases h; exact State.getV_skipIf s _ r
  | skp x =>
    rcases exec_skp_cases h with ⟨-, rfl⟩ | ⟨-, rfl⟩
    · exact State.getV_skipIf s _ r
    · rfl
  | sknp x =>
    rcases exec_sknp_cases h with ⟨-, rfl⟩ | ⟨-, rfl⟩
    · exact State.getV_skipIf s _ r
    · rfl
  | call nnn => rcases exec_call_cases h with ⟨-, rfl⟩ | ⟨-, rfl⟩ <;> rfl
  | ret => rcases exec_ret_cases h with ⟨-, rfl⟩ | ⟨-, rfl⟩ <;> rfl
  | ldB x => rcases exec_ldB_cases h with ⟨-, rfl⟩ | ⟨-, rfl⟩ <;> rfl
  | store x => rcases exec_store_cases h with ⟨-, rfl⟩ | ⟨-, rfl⟩ <;> rfl
  | cls | sys | jp | jpV0 | ldI | ldK | ldDt | ldSt | addI | ldF => cases h; rfl

/-- Settles O26: a register not listed keeps its value, by cases on the instruction. -/
theorem registersChangedOnlyByTheirWriters : Obligations.RegistersChangedOnlyByTheirWriters := by
  unfold Obligations.RegistersChangedOnlyByTheirWriters
  intro i s t r h hne
  by_contra hr
  exact hne (exec_getV_of_not_writesReg h hr)

/-! pc (R28, R99). -/

/-- A skip's own 2 and step 7's 2 (R99), when c is the skip's condition. -/
theorem State.pc_skipIf_advance {s : State} {i : Instr} {c : Bool} (hc : s.skipHolds i ↔ c = true) :
    (s.skipHolds i ∧ (s.skipIf c).advance.pc = s.pc + 4) ∨
    (¬ s.skipHolds i ∧ (s.skipIf c).advance.pc = s.pc + 2) := by
  cases c with
  | true => exact .inl ⟨hc.2 rfl, BitVec.add_assoc s.pc 2 2⟩
  | false => exact .inr ⟨by simp [hc], rfl⟩

/-- SKP's condition is that the selected line is pressed (R202). -/
theorem State.skipHolds_skp {s : State} {x : Reg} (h : (s.getV x).toNat < 16) :
    s.skipHolds (.skp x) ↔ s.input.keypad[(s.getV x).toNat] = true := by
  constructor
  · rintro ⟨k, hk, hp⟩
    simpa only [hk] using hp
  · exact fun hp => ⟨⟨_, h⟩, rfl, hp⟩

/-- SKNP's condition is that the selected line is released (R203). -/
theorem State.skipHolds_sknp {s : State} {x : Reg} (h : (s.getV x).toNat < 16) :
    s.skipHolds (.sknp x) ↔ (!s.input.keypad[(s.getV x).toNat]) = true := by
  rw [Bool.not_eq_true']
  constructor
  · rintro ⟨k, hk, hp⟩
    simpa only [hk] using hp
  · exact fun hp => ⟨⟨_, h⟩, rfl, hp⟩

/-- An instruction either leaves FAULT, or raises a fault that names its pc and does nothing else (R229, R230). -/
theorem exec_fault_cases {i : Instr} {s t : State} (h : exec i s = .next t) :
    t.fault = s.fault ∨ ∃ r, r.pc = s.pc ∧ t = s.raiseFault r := by
  cases i with
  | call nnn => exact (exec_call_cases h).imp (fun ⟨_, ht⟩ => ht ▸ rfl) fun ⟨_, ht⟩ => ⟨_, rfl, ht⟩
  | drw x y n => exact (exec_drw_cases h).imp (fun ⟨_, ht⟩ => ht ▸ rfl) fun ⟨_, _, ht⟩ => ⟨_, rfl, ht⟩
  | skp x => exact (exec_skp_cases h).imp (fun ⟨_, ht⟩ => by simp [ht]) fun ⟨_, ht⟩ => ⟨_, rfl, ht⟩
  | sknp x => exact (exec_sknp_cases h).imp (fun ⟨_, ht⟩ => by simp [ht]) fun ⟨_, ht⟩ => ⟨_, rfl, ht⟩
  | ldB x => exact (exec_ldB_cases h).imp (fun ⟨_, ht⟩ => ht ▸ rfl) fun ⟨_, ht⟩ => ⟨_, rfl, ht⟩
  | store x => exact (exec_store_cases h).imp (fun ⟨_, ht⟩ => ht ▸ rfl) fun ⟨_, ht⟩ => ⟨_, rfl, ht⟩
  | load x => exact (exec_load_cases h).imp (fun ⟨_, ht⟩ => ht ▸ rfl) fun ⟨_, ht⟩ => ⟨_, rfl, ht⟩
  | ret => rcases exec_ret_cases h with ⟨-, rfl⟩ | ⟨-, rfl⟩ <;> exact .inl rfl
  | _ => cases h; simp

/-- Without a fault and a redirect pc moves by 4 when a skip's condition holds, and by 2 otherwise (R28, R99). -/
theorem exec_pc_of_no_fault {i : Instr} {s t : State} (h : exec i s = .next t) (hf : t.fault = none)
    (hi : redirects i = false) :
    (s.skipHolds i ∧ t.pc = s.pc + 4) ∨ (¬ s.skipHolds i ∧ t.pc = s.pc + 2) := by
  cases i with
  | seImm | sneImm | seReg | sneReg => cases h; exact State.pc_skipIf_advance (by simp [State.skipHolds])
  | skp x =>
    rcases exec_skp_cases h with ⟨hlt, rfl⟩ | ⟨-, rfl⟩
    exacts [State.pc_skipIf_advance (State.skipHolds_skp hlt), nomatch hf]
  | sknp x =>
    rcases exec_sknp_cases h with ⟨hlt, rfl⟩ | ⟨-, rfl⟩
    exacts [State.pc_skipIf_advance (State.skipHolds_sknp hlt), nomatch hf]
  | drw x y n =>
    rcases exec_drw_cases h with ⟨-, rfl⟩ | ⟨-, -, rfl⟩
    exacts [.inr ⟨id, rfl⟩, nomatch hf]
  | ldB x =>
    rcases exec_ldB_cases h with ⟨-, rfl⟩ | ⟨-, rfl⟩
    exacts [.inr ⟨id, rfl⟩, nomatch hf]
  | store x =>
    rcases exec_store_cases h with ⟨-, rfl⟩ | ⟨-, rfl⟩
    exacts [.inr ⟨id, rfl⟩, nomatch hf]
  | load x =>
    rcases exec_load_cases h with ⟨-, rfl⟩ | ⟨-, rfl⟩
    exacts [.inr ⟨id, rfl⟩, nomatch hf]
  | jp | jpV0 | call | ret => cases hi
  | _ => cases h; exact .inr ⟨id, by simp⟩

/-- Settles O29: a fault leaves all but FAULT, and every other outcome has its own pc. -/
theorem pcAdvancesUnlessRedirected : Obligations.PcAdvancesUnlessRedirected := by
  unfold Obligations.PcAdvancesUnlessRedirected
  intro i s t hf h
  refine ⟨fun hne => ?_, fun ht hi hs => ?_, fun ht hi hs => ?_⟩
  · rcases exec_fault_cases h with he | ⟨r, -, rfl⟩
    · exact absurd (he.trans hf) hne
    · rfl
  · rcases exec_pc_of_no_fault h ht hi with ⟨-, hpc⟩ | ⟨hn, -⟩
    · exact hpc
    · exact absurd hs hn
  · rcases exec_pc_of_no_fault h ht hi with ⟨hs', -⟩ | ⟨-, hpc⟩
    · exact absurd hs' hs
    · exact hpc

/-! The key capture changes V and LATCH alone (R93). -/

theorem State.captureKey_eq (s : State) :
    s.captureKey = { s with v := s.captureKey.v, latch := s.captureKey.latch } := by
  unfold State.captureKey
  split <;> rfl

/-! What the dispatch of a word can do (R97, R98). -/

theorem execWord_cases {w : Word} {s t : State} (h : execWord w s = .next t) :
    (∃ i, decode w = .instr i ∧ exec i s = .next t) ∨
    (∃ u, decode w = .unmatched u ∧ t = (s.logEvent (.unmatchedOpcode u)).advance) := by
  unfold execWord at h
  split at h
  · exact .inl ⟨_, ‹_›, h⟩
  · cases h
    exact .inr ⟨_, ‹_›, rfl⟩

/-! Parameters (R41). -/

theorem exec_params {i : Instr} {s t : State} (h : exec i s = .next t) : t.params = s.params := by
  obtain ⟨-, -, -, -, -, -, -, -, -, -, hp, -⟩ := stateElementsChangedOnlyByTheirWriters i s t h
  exact hp

theorem exec_paused {i : Instr} {s t : State} (h : exec i s = .next t) : t.paused = s.paused := by
  obtain ⟨-, -, -, -, -, -, -, -, -, hp, -⟩ := stateElementsChangedOnlyByTheirWriters i s t h
  exact hp

theorem exec_pending {i : Instr} {s t : State} (h : exec i s = .next t) : t.pending = s.pending := by
  obtain ⟨-, -, -, -, -, -, -, -, -, -, -, hp, -⟩ := stateElementsChangedOnlyByTheirWriters i s t h
  exact hp

theorem execWord_params {w : Word} {s t : State} (h : execWord w s = .next t) : t.params = s.params := by
  rcases execWord_cases h with ⟨i, -, hi⟩ | ⟨u, -, rfl⟩
  · exact exec_params hi
  · rfl

theorem runInstr_params {s t : State} (h : runInstr s = .next t) : t.params = s.params := by
  rcases runInstr_cases h with ⟨r, -, rfl⟩ | ⟨u, -, -, hu, rfl⟩
  · rfl
  · simpa using execWord_params hu

/-- Settles O18: no part of a call writes the parameters. -/
theorem stepKeepsTheParameters : Obligations.StepKeepsTheParameters := by
  unfold Obligations.StepKeepsTheParameters
  intro s t h
  obtain ⟨-, ⟨-, rfl⟩ | ⟨-, -, -, rfl⟩ | ⟨-, -, -, -, rfl⟩ | ⟨-, -, hr⟩⟩ := step_cases h
  · rw [State.captureKey_eq]; rfl
  · rfl
  · rfl
  · exact (runInstr_params hr).trans s.unpause_params

/-! The invariant (R29, R36, R50, R230). -/

/-- The data stored by an instruction that passes R56's check keeps memory's canonical form. -/
theorem Memory.writeBytes_wf_of_inRange {m : Memory} (hm : m.wf) {a k : Nat} {bs : List Byte} (h : InRange a k)
    (hk : bs.length = k) : (m.writeBytes a bs).wf :=
  Memory.writeBytes_wf hm a bs (by omega)

theorem exec_mem_wf {i : Instr} {s t : State} (h : exec i s = .next t) (hm : s.mem.wf) : t.mem.wf := by
  cases i with
  | ldB x =>
    rcases exec_ldB_cases h with ⟨hr, rfl⟩ | ⟨-, rfl⟩
    · exact Memory.writeBytes_wf_of_inRange hm hr rfl
    · exact hm
  | store x =>
    rcases exec_store_cases h with ⟨hr, rfl⟩ | ⟨-, rfl⟩
    · exact Memory.writeBytes_wf_of_inRange hm hr (s.length_regsUpTo x)
    · exact hm
  | call nnn => rcases exec_call_cases h with ⟨-, rfl⟩ | ⟨-, rfl⟩ <;> exact hm
  | ret => rcases exec_ret_cases h with ⟨-, rfl⟩ | ⟨-, rfl⟩ <;> exact hm
  | drw x y n => rcases exec_drw_cases h with ⟨-, rfl⟩ | ⟨-, -, rfl⟩ <;> exact hm
  | skp x => rcases exec_skp_cases h with ⟨-, rfl⟩ | ⟨-, rfl⟩ <;> simpa using hm
  | sknp x => rcases exec_sknp_cases h with ⟨-, rfl⟩ | ⟨-, rfl⟩ <;> simpa using hm
  | load x => rcases exec_load_cases h with ⟨-, rfl⟩ | ⟨-, rfl⟩ <;> exact hm
  | _ => cases h; simpa using hm

/-- Only CALL and RET use the stack (R31). -/
theorem exec_stack_sp {i : Instr} {s t : State} (h : exec i s = .next t) (hc : ∀ nnn, i ≠ .call nnn)
    (hr : i ≠ .ret) : t.stack = s.stack ∧ t.sp = s.sp := by
  obtain ⟨-, hsp, hstack, -⟩ := stateElementsChangedOnlyByTheirWriters i s t h
  constructor
  · by_contra hne
    obtain ⟨nnn, rfl⟩ := hstack hne
    exact hc nnn rfl
  · by_contra hne
    rcases hsp hne with ⟨nnn, rfl⟩ | rfl
    · exact hc nnn rfl
    · exact hr rfl

/-- Every return address in use is at most 4094 (R29). -/
def State.returnsBounded (s : State) : Prop :=
  ∀ k, (h : k < s.sp.val) → (s.stack[k]'(by omega)).toNat ≤ 4094

theorem State.returnsBounded_congr {s t : State} (h : s.returnsBounded) (hstack : t.stack = s.stack)
    (hsp : t.sp.val ≤ s.sp.val) : t.returnsBounded := by
  intro k hk
  simpa only [hstack] using h k (by omega)

theorem exec_returnsBounded {i : Instr} {s t : State} (h : exec i s = .next t) (hpc : s.pc.toNat ≤ 4094)
    (hb : s.returnsBounded) : t.returnsBounded := by
  cases i with
  | call nnn =>
    rcases exec_call_cases h with ⟨hlt, rfl⟩ | ⟨-, rfl⟩
    · intro k hk
      have hk' : k ≤ s.sp.val := Nat.le_of_lt_succ hk
      simp only [State.jumpTo_stack, Vector.getElem_set]
      split
      · exact hpc
      · exact hb k (by omega)
    · exact hb
  | ret =>
    rcases exec_ret_cases h with ⟨-, rfl⟩ | ⟨-, rfl⟩
    · exact State.returnsBounded_congr hb rfl (Nat.sub_le _ _)
    · exact hb
  | _ =>
    obtain ⟨hstack, hsp⟩ := exec_stack_sp h (by simp) (by simp)
    exact State.returnsBounded_congr hb hstack (by rw [hsp])

/-- A 16-bit sum is at most the sum on naturals. -/
theorem toNat_add_le (a b : Word) : (a + b).toNat ≤ a.toNat + b.toNat := by
  rw [BitVec.toNat_add]
  exact Nat.mod_le _ _

/-- An advance or a skip from a pc that was fetched from stays below the bound (R29). -/
theorem pc_add_le {p d : Word} (hp : p.toNat ≤ 4094) (hd : d.toNat ≤ 4) : (p + d).toNat ≤ 0x10FE := by
  have hsum := toNat_add_le p d
  omega

theorem retResumeOffset_toNat_le (o : Config.RetResumeOffset) : o.toWord.toNat ≤ 2 := by
  cases o <;> decide

theorem zextAddr_toNat (a : Addr) : (zextAddr a).toNat = a.toNat :=
  BitVec.toNat_setWidth_of_le (by decide)

theorem State.zextV_toNat (s : State) (r : Reg) : (s.zextV r).toNat = (s.getV r).toNat :=
  BitVec.toNat_setWidth_of_le (by decide)

/-- A redirect's target is at most 0xFFF + 0xFF, which BNNN reaches (R29). -/
theorem exec_pc_le_of_redirects {i : Instr} {s t : State} (h : exec i s = .next t) (hi : redirects i = true)
    (hpc : s.pc.toNat ≤ 4094) (hb : s.returnsBounded) : t.pc.toNat ≤ 0x10FE := by
  cases i with
  | jp nnn =>
    cases h
    have hn := nnn.isLt
    rw [State.jumpTo_pc, zextAddr_toNat]
    omega
  | jpV0 nnn =>
    cases h
    have hsum := toNat_add_le (zextAddr nnn) (s.zextV 0)
    have hn := nnn.isLt
    have hv := (s.getV 0).isLt
    rw [zextAddr_toNat, State.zextV_toNat] at hsum
    rw [State.jumpTo_pc]
    omega
  | call nnn =>
    rcases exec_call_cases h with ⟨-, rfl⟩ | ⟨-, rfl⟩
    · have hn := nnn.isLt
      rw [State.jumpTo_pc, zextAddr_toNat]
      omega
    · exact hpc.trans (by decide)
  | ret =>
    rcases exec_ret_cases h with ⟨hpos, rfl⟩ | ⟨-, rfl⟩
    · have htop := hb (s.sp.val - 1) (by omega)
      have hoff := retResumeOffset_toNat_le s.params.retResumeOffset
      have hsum := toNat_add_le (s.stack[s.sp.val - 1]'(by omega)) s.params.retResumeOffset.toWord
      rw [State.jumpTo_pc]
      omega
    · exact hpc.trans (by decide)
  | _ => cases hi

theorem exec_pc_le {i : Instr} {s t : State} (h : exec i s = .next t) (hf : s.fault = none)
    (hpc : s.pc.toNat ≤ 4094) (hb : s.returnsBounded) : t.pc.toNat ≤ 0x10FE := by
  cases hi : redirects i with
  | true => exact exec_pc_le_of_redirects h hi hpc hb
  | false =>
    rcases exec_fault_cases h with hft | ⟨r, -, rfl⟩
    · rcases exec_pc_of_no_fault h (hft.trans hf) hi with ⟨-, hp⟩ | ⟨-, hp⟩ <;> rw [hp] <;>
        exact pc_add_le hpc (by decide)
    · exact hpc.trans (by decide)

/-- A change of V, I, the timers, FB, the latch or the log keeps the invariant; so does one of PAUSED at level 3, and
closing the load. -/
theorem State.Inv.of_frame {s t : State} (h : s.Inv) (hmem : t.mem = s.mem) (hpc : t.pc = s.pc)
    (hstack : t.stack = s.stack) (hsp : t.sp = s.sp) (hfault : t.fault = s.fault)
    (hpaused : t.paused = true → t.params.debugLevel = 3) (hload : t.loadOpen = true → s.loadOpen = true) :
    t.Inv where
  memWf := hmem ▸ h.memWf
  pausedLevel := hpaused
  pcBound := hpc ▸ h.pcBound
  returnBound := State.returnsBounded_congr h.returnBound hstack (by rw [hsp])
  faultPc := by rw [hfault, hpc]; exact h.faultPc
  loadOpenSafe hl := hfault.trans (h.loadOpenSafe (hload hl))

theorem State.Inv.served {s : State} (h : s.Inv) : s.served.Inv :=
  h.of_frame rfl rfl rfl rfl rfl h.pausedLevel nofun

theorem State.Inv.unpause {s : State} (h : s.Inv) : s.unpause.Inv :=
  h.of_frame rfl rfl rfl rfl rfl nofun id

theorem State.Inv.tickTimers {s : State} (h : s.Inv) : s.tickTimers.Inv :=
  h.of_frame rfl rfl rfl rfl rfl h.pausedLevel id

theorem State.Inv.captureKey {s : State} (h : s.Inv) : s.captureKey.Inv := by
  rw [State.captureKey_eq]
  exact h.of_frame rfl rfl rfl rfl rfl h.pausedLevel id

/-- Step 8's pause is set at level 3 alone (R100). -/
theorem State.Inv.pauseAfter_served {s : State} (h : s.served.Inv) : s.pauseAfter.served.Inv := by
  refine h.of_frame (by simp) (by simp) (by simp) (by simp) (by simp) (fun hp => ?_) nofun
  rw [State.served_paused, State.pauseAfter_paused] at hp
  rw [State.served_params, State.pauseAfter_params]
  split at hp
  · exact ‹_ ∧ _›.2
  · exact h.pausedLevel hp

/-- A fault that names the pc keeps the invariant, once the call has closed the load (R229, R254). -/
theorem State.Inv.raiseFault_served {s : State} (h : s.Inv) {r : Fault} (hr : r.pc = s.pc) :
    (s.raiseFault r).served.Inv where
  memWf := h.memWf
  pausedLevel := h.pausedLevel
  pcBound := h.pcBound
  returnBound := h.returnBound
  faultPc := by rintro _ ⟨⟩; exact hr
  loadOpenSafe := nofun

/-- An instruction fetched from pc keeps the invariant, up to the closing of the load. -/
theorem exec_served_inv {i : Instr} {s t : State} (h : exec i s = .next t) (hs : s.Inv) (hf : s.fault = none)
    (hpc : s.pc.toNat ≤ 4094) : t.served.Inv := by
  rcases exec_fault_cases h with hft | ⟨r, hr, rfl⟩
  · exact {
      memWf := (exec_mem_wf h hs.memWf :)
      pausedLevel := by
        rw [State.served_paused, State.served_params, exec_paused h, exec_params h]
        exact hs.pausedLevel
      pcBound := (exec_pc_le h hf hpc hs.returnBound :)
      returnBound := (exec_returnsBounded h hpc hs.returnBound :)
      faultPc := by rw [State.served_fault, hft, hf]; nofun
      loadOpenSafe := nofun }
  · exact hs.raiseFault_served hr

theorem execWord_served_inv {w : Word} {s t : State} (h : execWord w s = .next t) (hs : s.Inv)
    (hf : s.fault = none) (hpc : s.pc.toNat ≤ 4094) : t.served.Inv := by
  rcases execWord_cases h with ⟨i, -, hi⟩ | ⟨u, -, rfl⟩
  · exact exec_served_inv hi hs hf hpc
  · exact {
      memWf := hs.memWf
      pausedLevel := hs.pausedLevel
      pcBound := pc_add_le hpc (by decide)
      returnBound := hs.returnBound
      faultPc := by simp [hf]
      loadOpenSafe := nofun }

/-- The two fetch faults name the pc (R222, R223). -/
theorem State.fetch_error_pc {s : State} {r : Fault} (h : s.fetch = .error r) : r.pc = s.pc := by
  rcases s.fetch_cases with ⟨-, hf⟩ | ⟨-, -, -, hf⟩ | ⟨-, hf⟩ <;> rw [hf] at h <;> cases h <;> rfl

theorem runInstr_inv {s t : State} (h : runInstr s = .next t) (hs : s.Inv) (hf : s.fault = none) : t.Inv := by
  rcases runInstr_cases h with ⟨r, hr, rfl⟩ | ⟨u, -, hok, hu, rfl⟩
  · exact hs.tickTimers.raiseFault_served (State.fetch_error_pc hr)
  · exact (execWord_served_inv hu hs.tickTimers hf hok.1).pauseAfter_served

/-- Settles O24: each step of the cycle keeps the invariant, and an instruction runs only from a pc up to 4094. -/
theorem stepKeepsTheStateInvariant : Obligations.StepKeepsTheStateInvariant := by
  unfold Obligations.StepKeepsTheStateInvariant
  intro s t hs h
  obtain ⟨hf, ⟨-, rfl⟩ | ⟨-, -, -, rfl⟩ | ⟨-, -, -, -, rfl⟩ | ⟨-, -, hr⟩⟩ := step_cases h
  · exact hs.captureKey.served
  · exact hs.served
  · exact hs.unpause.served
  · exact runInstr_inv hr hs.unpause hf

/-! Two related runs (R102): where two states take the same branches, their answers are related if their parts are. -/

/-- An answer agrees with its own image. -/
theorem answersAgree_mapNext {R : State → State → Prop} {f : State → State} {a : Answer}
    (h : ∀ u, a = .next u → R u (f u)) : answersAgree R a (mapNext f a) := by
  cases a with
  | next u => exact h u rfl
  | fault r => rfl
  | refused r => rfl

theorem answersAgree_imp {R R' : State → State → Prop} (h : ∀ u v, R u v → R' u v) {a b : Answer}
    (hab : answersAgree R a b) : answersAgree R' a b := by
  cases a <;> cases b
  case next.next u v => exact h u v hab
  case fault.fault => exact hab
  case refused.refused => exact hab
  all_goals exact False.elim hab

theorem answersAgree_eq {a b : Answer} (h : answersAgree Eq a b) : a = b := by
  cases a <;> cases b
  case next.next => exact congrArg _ h
  case fault.fault => exact congrArg _ h
  case refused.refused => exact congrArg _ h
  all_goals exact False.elim h

theorem answersAgree_of_eq {a b : Answer} (h : a = b) : answersAgree Eq a b := by
  subst h
  cases a <;> rfl

theorem execWord_related {R : State → State → Prop} {s t : State} {w : Word}
    (hexec : ∀ i, decode w = .instr i → answersAgree R (exec i s) (exec i t))
    (hlog : ∀ u, R (s.logEvent (.unmatchedOpcode u)).advance (t.logEvent (.unmatchedOpcode u)).advance) :
    answersAgree R (execWord w s) (execWord w t) := by
  unfold execWord
  split
  · exact hexec _ ‹_›
  · exact hlog _

theorem endCall_related {R : State → State → Prop} {a b : Answer}
    (h : answersAgree (fun u v => R u.pauseAfter.served v.pauseAfter.served) a b) :
    answersAgree R (endCall a) (endCall b) := by
  cases a <;> cases b <;> exact h

/-- The fetch reads pc, memory and ODD_PC_FETCH (R96). -/
theorem State.fetch_congr {s t : State} (hpc : t.pc = s.pc) (hmem : t.mem = s.mem) (hparams : t.params = s.params) :
    t.fetch = s.fetch := by
  simp only [State.fetch, hpc, hmem, hparams]

theorem runInstr_related {R : State → State → Prop} {s t : State}
    (hfetch : t.tickTimers.fetch = s.tickTimers.fetch)
    (hfault : ∀ r, R (s.tickTimers.raiseFault r).served (t.tickTimers.raiseFault r).served)
    (hexec : answersAgree (fun u v => R u.pauseAfter.served v.pauseAfter.served)
      (execWord s.wordAtPc s.tickTimers) (execWord s.wordAtPc t.tickTimers)) :
    answersAgree R (runInstr s) (runInstr t) := by
  unfold runInstr
  rw [hfetch]
  rcases s.tickTimers.fetch_cases with ⟨-, hf⟩ | ⟨-, -, -, hf⟩ | ⟨-, hf⟩ <;> rw [hf]
  · exact hfault _
  · exact hfault _
  · exact endCall_related hexec

/-- Two cycle calls that take the same branches, part by part. -/
theorem step_related {R : State → State → Prop} {s t : State} (hf : t.fault = s.fault) (hl : t.latch = s.latch)
    (hp : t.paused = s.paused) (hk : t.input.keypad = s.input.keypad)
    (hsf : t.params.singleStepFallthrough = s.params.singleStepFallthrough)
    (hcapture : R s.captureKey.served t.captureKey.served) (hserved : R s.served t.served)
    (hunpause : R s.unpause.served t.unpause.served)
    (hrun : answersAgree R (runInstr s.unpause) (runInstr t.unpause)) : answersAgree R (step s) (step t) := by
  cases hsfault : s.fault with
  | some r => rw [step_of_fault hsfault, step_of_fault (hf.trans hsfault)]; rfl
  | none =>
    have htfault := hf.trans hsfault
    cases hslatch : s.latch with
    | true => rw [step_of_latch hsfault hslatch, step_of_latch htfault (hl.trans hslatch)]; exact hcapture
    | false =>
      have htlatch := hl.trans hslatch
      cases hspaused : s.paused with
      | false =>
        have htpaused := hp.trans hspaused
        rw [step_of_running ⟨hsfault, hslatch, hspaused⟩, step_of_running ⟨htfault, htlatch, htpaused⟩]
        rwa [State.unpause_of_not_paused hspaused, State.unpause_of_not_paused htpaused] at hrun
      | true =>
        have htpaused := hp.trans hspaused
        cases hkey : anyPressed s.input.keypad with
        | false =>
          rw [step_of_pausedNoKey hsfault hslatch hspaused hkey,
            step_of_pausedNoKey htfault htlatch htpaused (hk ▸ hkey)]
          exact hserved
        | true =>
          rw [step_of_pausedKey hsfault hslatch hspaused hkey,
            step_of_pausedKey htfault htlatch htpaused (hk ▸ hkey), hsf]
          split
          · exact hrun
          · exact hunpause

/-! What an instruction does not read: the stack but for CALL and RET, the request but for RND, SKP and SKNP. -/

/-- The same state with other stack slots and another list of requests. -/
def State.reframe (s : State) (k : Vector Word 16) (p : List CycleInput) : State :=
  { s with stack := k, pending := p }

theorem State.writeResultAndFlag_reframe (s : State) (k : Vector Word 16) (p : List CycleInput) (x : Reg)
    (r f : Byte) : (s.reframe k p).writeResultAndFlag x r f = (s.writeResultAndFlag x r f).reframe k p := by
  unfold State.writeResultAndFlag
  split <;> rfl

theorem State.skipIf_reframe (s : State) (k : Vector Word 16) (p : List CycleInput) (c : Bool) :
    (s.reframe k p).skipIf c = (s.skipIf c).reframe k p := by
  cases c <;> rfl

/-- The line a register selects depends on V and this call's keypad. -/
theorem State.keyLine_congr {s t : State} (x : Reg) (hv : t.v = s.v) (hk : t.input.keypad = s.input.keypad) :
    t.keyLine x = s.keyLine x := by
  simp only [State.keyLine, State.getV_congr hv, hk]

/-- An instruction but CALL and RET carries the slots and the requests along, if the requests agree on what it reads of
this call's (R31, R40, R39). -/
theorem exec_reframe {i : Instr} (s : State) (k : Vector Word 16) (p : List CycleInput)
    (hc : ∀ nnn, i ≠ .call nnn) (hr : i ≠ .ret)
    (hrnd : ∀ x nn, i = .rnd x nn → (s.reframe k p).input.rnd = s.input.rnd)
    (hkey : ∀ x, i = .skp x ∨ i = .sknp x → (s.reframe k p).input.keypad = s.input.keypad) :
    exec i (s.reframe k p) = mapNext (fun t => t.reframe k p) (exec i s) := by
  cases i with
  | call nnn => exact absurd rfl (hc nnn)
  | ret => exact absurd rfl hr
  | rnd x nn => simp only [exec, execRnd, hrnd x nn rfl]; rfl
  | skp x =>
    simp only [exec, execSkp, State.keyLine_congr (s := s) (t := s.reframe k p) x rfl (hkey x (.inl rfl))]
    cases s.keyLine x with
    | some pressed => exact congrArg (fun t : State => Host.Outcome.next t.advance) (s.skipIf_reframe k p _)
    | none => rfl
  | sknp x =>
    simp only [exec, execSknp, State.keyLine_congr (s := s) (t := s.reframe k p) x rfl (hkey x (.inr rfl))]
    cases s.keyLine x with
    | some pressed => exact congrArg (fun t : State => Host.Outcome.next t.advance) (s.skipIf_reframe k p _)
    | none => rfl
  | addReg x y | sub x y | subn x y | shr x y | shl x y =>
    exact congrArg (fun t : State => Host.Outcome.next t.advance) (s.writeResultAndFlag_reframe k p x _ _)
  | seImm x nn | sneImm x nn | seReg x y | sneReg x y =>
    exact congrArg (fun t : State => Host.Outcome.next t.advance) (s.skipIf_reframe k p _)
  | drw x y n => simp only [exec, execDrw, apply_ite (mapNext _)]; rfl
  | ldB x => simp only [exec, execLdB, apply_ite (mapNext _)]; rfl
  | store x => simp only [exec, execStore, apply_ite (mapNext _)]; rfl
  | load x => simp only [exec, execLoad, apply_ite (mapNext _)]; rfl
  | _ => rfl

/-! Stack slots not in use (R32). -/

/-- Two stacks that agree on the first n slots. -/
def slotsAgree (n : Nat) (a b : Vector Word 16) : Prop := ∀ k, (h : k < 16) → k < n → a[k] = b[k]

/-- Pushing one value keeps the agreement and adds its slot. -/
theorem slotsAgree_set {n : Nat} {a b : Vector Word 16} (h : slotsAgree n a b) (hn : n < 16) (w : Word) :
    slotsAgree (n + 1) (a.set n w) (b.set n w) := by
  intro k hk hlt
  rw [Vector.getElem_set, Vector.getElem_set]
  split
  · rfl
  · exact h k hk (by omega)

theorem slotsAgree_of_le {m n : Nat} {a b : Vector Word 16} (h : slotsAgree n a b) (hmn : m ≤ n) :
    slotsAgree m a b :=
  fun k hk hlt => h k hk (by omega)

theorem agreeButStale_iff {s t : State} :
    agreeButStale s t ↔ ∃ k, t = { s with stack := k } ∧ slotsAgree s.sp.val s.stack k := by
  constructor
  · rintro ⟨ht, h⟩
    exact ⟨t.stack, ht, fun k _ hk => h k hk⟩
  · rintro ⟨k, rfl, h⟩
    exact ⟨rfl, fun j hj => h j (by omega) hj⟩

/-- An operation that neither reads nor writes the stack and SP keeps the agreement. -/
theorem agreeButStale_map {f : State → State}
    (hf : ∀ (s : State) (k : Vector Word 16), f { s with stack := k } = { f s with stack := k })
    (hstack : ∀ s, (f s).stack = s.stack) (hsp : ∀ s, (f s).sp = s.sp) {s t : State} (h : agreeButStale s t) :
    agreeButStale (f s) (f t) := by
  obtain ⟨k, rfl, hk⟩ := agreeButStale_iff.1 h
  exact agreeButStale_iff.2 ⟨k, hf s k, by rwa [hstack, hsp]⟩

theorem agreeButStale_served {s t : State} (h : agreeButStale s t) : agreeButStale s.served t.served :=
  agreeButStale_map (f := State.served) (fun _ _ => rfl) (fun _ => rfl) (fun _ => rfl) h

theorem agreeButStale_unpause {s t : State} (h : agreeButStale s t) : agreeButStale s.unpause t.unpause :=
  agreeButStale_map (f := State.unpause) (fun _ _ => rfl) (fun _ => rfl) (fun _ => rfl) h

theorem agreeButStale_tickTimers {s t : State} (h : agreeButStale s t) : agreeButStale s.tickTimers t.tickTimers :=
  agreeButStale_map (f := State.tickTimers) (fun _ _ => rfl) (fun _ => rfl) (fun _ => rfl) h

theorem agreeButStale_raiseFault {s t : State} (r : Fault) (h : agreeButStale s t) :
    agreeButStale (s.raiseFault r) (t.raiseFault r) :=
  agreeButStale_map (f := fun s => s.raiseFault r) (fun _ _ => rfl) (fun _ => rfl) (fun _ => rfl) h

theorem agreeButStale_logEvent_advance {s t : State} (e : LogEvent) (h : agreeButStale s t) :
    agreeButStale (s.logEvent e).advance (t.logEvent e).advance :=
  agreeButStale_map (f := fun s => (s.logEvent e).advance) (fun _ _ => rfl) (fun _ => rfl) (fun _ => rfl) h

theorem agreeButStale_pauseAfter {s t : State} (h : agreeButStale s t) : agreeButStale s.pauseAfter t.pauseAfter :=
  agreeButStale_map (fun _ _ => by simp only [State.pauseAfter_eq]) State.pauseAfter_stack State.pauseAfter_sp h

theorem agreeButStale_captureKey {s t : State} (h : agreeButStale s t) : agreeButStale s.captureKey t.captureKey := by
  refine agreeButStale_map (fun s k => ?_) (fun s => ?_) (fun s => ?_) h
  · have hin : ({ s with stack := k } : State).input = s.input := rfl
    unfold State.captureKey
    rw [hin]
    cases lowestPressed s.input.keypad <;> rfl
  · rw [State.captureKey_eq]
  · rw [State.captureKey_eq]

/-- CALL pushes the same address onto the same slot (R122). -/
theorem agreeButStale_exec_call {s t u v : State} {nnn : Addr} (h : agreeButStale s t)
    (hu : exec (.call nnn) s = .next u) (hv : exec (.call nnn) t = .next v) : agreeButStale u v := by
  obtain ⟨k, rfl, hk⟩ := agreeButStale_iff.1 h
  rcases exec_call_cases hu with ⟨hlt, rfl⟩ | ⟨hfull, rfl⟩ <;>
    rcases exec_call_cases hv with ⟨hlt', rfl⟩ | ⟨hfull', rfl⟩
  · exact agreeButStale_iff.2 ⟨_, rfl, slotsAgree_set hk hlt s.pc⟩
  · exact absurd hfull' (Nat.ne_of_lt hlt)
  · exact absurd hfull (Nat.ne_of_lt hlt')
  · exact agreeButStale_raiseFault _ h

/-- RET pops the same address off a slot in use (R123). -/
theorem agreeButStale_exec_ret {s t u v : State} (h : agreeButStale s t)
    (hu : exec .ret s = .next u) (hv : exec .ret t = .next v) : agreeButStale u v := by
  obtain ⟨k, rfl, hk⟩ := agreeButStale_iff.1 h
  rcases exec_ret_cases hu with ⟨hpos, rfl⟩ | ⟨hempty, rfl⟩ <;>
    rcases exec_ret_cases hv with ⟨hpos', rfl⟩ | ⟨hempty', rfl⟩
  · have htop := hk (s.sp.val - 1) (by omega) (by omega)
    rw [htop]
    exact agreeButStale_iff.2 ⟨k, rfl, slotsAgree_of_le hk (Nat.sub_le _ _)⟩
  · exact absurd hempty' (Nat.ne_of_gt hpos)
  · exact absurd hempty (Nat.ne_of_gt hpos')
  · exact agreeButStale_iff.2 ⟨k, rfl, hk⟩

/-- Each instruction keeps the agreement: CALL and RET by their slots, every other by not touching them. -/
theorem agreeButStale_exec {s t : State} (i : Instr) (h : agreeButStale s t) :
    answersAgree agreeButStale (exec i s) (exec i t) := by
  obtain ⟨u, hu⟩ := exec_next i s
  obtain ⟨v, hv⟩ := exec_next i t
  by_cases hc : ∃ nnn, i = .call nnn
  · obtain ⟨nnn, rfl⟩ := hc
    rw [hu, hv]
    exact agreeButStale_exec_call h hu hv
  by_cases hr : i = .ret
  · subst hr
    rw [hu, hv]
    exact agreeButStale_exec_ret h hu hv
  obtain ⟨k, rfl, hk⟩ := agreeButStale_iff.1 h
  have hcall : ∀ nnn, i ≠ .call nnn := fun nnn hi => hc ⟨nnn, hi⟩
  rw [show ({ s with stack := k } : State) = s.reframe k s.pending from rfl,
    exec_reframe s k s.pending hcall hr (fun _ _ _ => rfl) (fun _ _ => rfl)]
  refine answersAgree_mapNext fun u hu => ?_
  obtain ⟨hstack, hsp⟩ := exec_stack_sp hu hcall hr
  have hpending := exec_pending hu
  exact agreeButStale_iff.2 ⟨k, by rw [State.reframe, hpending], by rwa [hstack, hsp]⟩

theorem agreeButStale_runInstr {s t : State} (h : agreeButStale s t) :
    answersAgree agreeButStale (runInstr s) (runInstr t) := by
  have htick := agreeButStale_tickTimers h
  have hfetch : t.tickTimers.fetch = s.tickTimers.fetch := by
    rw [h.1]; exact State.fetch_congr rfl rfl rfl
  refine runInstr_related hfetch (fun r => agreeButStale_served (agreeButStale_raiseFault r htick)) ?_
  refine execWord_related (fun i _ => ?_) fun u => ?_
  · exact answersAgree_imp (fun _ _ huv => agreeButStale_served (agreeButStale_pauseAfter huv))
      (agreeButStale_exec i htick)
  · exact agreeButStale_served (agreeButStale_pauseAfter (agreeButStale_logEvent_advance _ htick))

/-- Settles O20: the two calls take the same branches, and every part of a call keeps the agreement. -/
theorem staleStackSlotsAreUnobservable : Obligations.StaleStackSlotsAreUnobservable := by
  unfold Obligations.StaleStackSlotsAreUnobservable
  intro s t h
  have hinput : t.input = s.input := by rw [h.1]; rfl
  have hparams : t.params = s.params := by rw [h.1]
  exact step_related (by rw [h.1]) (by rw [h.1]) (by rw [h.1]) (by rw [hinput]) (by rw [hparams])
    (agreeButStale_served (agreeButStale_captureKey h)) (agreeButStale_served h)
    (agreeButStale_served (agreeButStale_unpause h)) (agreeButStale_runInstr (agreeButStale_unpause h))

/-! The request of a call and its readers (R39, R40, R236). -/

/-- Step 8 drops the request, whichever it was. -/
theorem State.pauseAfter_served_withInput (s : State) (c : CycleInput) :
    (s.withInput c).pauseAfter.served = s.pauseAfter.served := by
  simp only [State.pauseAfter_eq]
  rfl

theorem State.push_withInput (s : State) (c : CycleInput) (a : Word) :
    (s.withInput c).push a = (s.push a).map fun t => t.withInput c := by
  by_cases h : s.sp.val < 16
  · rw [State.push_of_lt a h, State.push_of_lt (s := s.withInput c) a h]
    rfl
  · have hfull : s.sp.val = 16 := by omega
    rw [State.push_of_full a hfull, State.push_of_full (s := s.withInput c) a hfull]
    rfl

theorem State.pop_withInput (s : State) (c : CycleInput) :
    (s.withInput c).pop = s.pop.map fun p => (p.1, p.2.withInput c) := by
  by_cases h : 0 < s.sp.val
  · rw [State.pop_of_pos h, State.pop_of_pos (s := s.withInput c) h]
    rfl
  · have hempty : s.sp.val = 0 := by omega
    rw [State.pop_of_empty hempty, State.pop_of_empty (s := s.withInput c) hempty]
    rfl

/-- CALL and RET read no request. -/
theorem exec_call_withInput (s : State) (c : CycleInput) (nnn : Addr) :
    exec (.call nnn) (s.withInput c) = mapNext (fun t => t.withInput c) (exec (.call nnn) s) := by
  have hpush : (s.withInput c).push (s.withInput c).pc = (s.push s.pc).map fun t => t.withInput c :=
    s.push_withInput c s.pc
  simp only [exec, execCall, hpush]
  cases s.push s.pc <;> rfl

theorem exec_ret_withInput (s : State) (c : CycleInput) :
    exec .ret (s.withInput c) = mapNext (fun t => t.withInput c) (exec .ret s) := by
  simp only [exec, execRet, s.pop_withInput c]
  cases s.pop <;> rfl

/-- An instruction carries the request along, if it agrees on what the instruction reads of it. -/
theorem exec_withInput {i : Instr} (s : State) (c : CycleInput)
    (hrnd : ∀ x nn, i = .rnd x nn → c.rnd = s.input.rnd)
    (hkey : ∀ x, i = .skp x ∨ i = .sknp x → c.keypad = s.input.keypad) :
    exec i (s.withInput c) = mapNext (fun t => t.withInput c) (exec i s) := by
  by_cases hc : ∃ nnn, i = .call nnn
  · obtain ⟨nnn, rfl⟩ := hc
    exact exec_call_withInput s c nnn
  by_cases hr : i = .ret
  · subst hr
    exact exec_ret_withInput s c
  have hcall : ∀ nnn, i ≠ .call nnn := fun nnn hi => hc ⟨nnn, hi⟩
  rw [show s.withInput c = s.reframe s.stack (c :: s.pending.tail) from rfl,
    exec_reframe s s.stack (c :: s.pending.tail) hcall hr hrnd hkey]
  obtain ⟨u, hu⟩ := exec_next i s
  rw [hu]
  obtain ⟨hstack, -⟩ := exec_stack_sp hu hcall hr
  simp only [mapNext, State.reframe, State.withInput, exec_pending hu, ← hstack]

/-- Steps 3 to 8 answer the same for two requests that agree on what the fetched instruction reads. -/
theorem runInstr_withInput (s : State) (c d : CycleInput)
    (hrnd : ∀ x nn, decode s.wordAtPc = .instr (.rnd x nn) → c.rnd = d.rnd)
    (hkey : ∀ x, decode s.wordAtPc = .instr (.skp x) ∨ decode s.wordAtPc = .instr (.sknp x) →
      c.keypad = d.keypad) :
    runInstr (s.withInput c) = runInstr (s.withInput d) := by
  have hfetch : (s.withInput d).tickTimers.fetch = (s.withInput c).tickTimers.fetch := State.fetch_congr rfl rfl rfl
  refine answersAgree_eq (runInstr_related hfetch (fun _ => rfl) (execWord_related (fun i hi => ?_) fun _ => ?_))
  · have hd : (s.withInput d).tickTimers = (s.withInput c).tickTimers.withInput d := rfl
    have hr : ∀ x nn, i = .rnd x nn → d.rnd = (s.withInput c).tickTimers.input.rnd :=
      fun x nn h => (hrnd x nn (h ▸ hi)).symm
    have hk : ∀ x, i = .skp x ∨ i = .sknp x → d.keypad = (s.withInput c).tickTimers.input.keypad :=
      fun x h => (hkey x (h.imp (fun h => hi.trans (congrArg _ h)) fun h => hi.trans (congrArg _ h))).symm
    rw [hd, exec_withInput (s.withInput c).tickTimers d hr hk]
    exact answersAgree_mapNext fun u _ => (u.pauseAfter_served_withInput d).symm
  · simp only [State.pauseAfter_eq]
    rfl

theorem State.captureKey_served_withInput (s : State) {c d : CycleInput} (h : c.keypad = d.keypad) :
    (s.withInput c).captureKey.served = (s.withInput d).captureKey.served := by
  have hinput : ∀ e, (s.withInput e).input = e := fun _ => rfl
  unfold State.captureKey
  rw [hinput, hinput, h]
  cases lowestPressed d.keypad <;> rfl

/-- Settles O19: what the call reads of its request is the keypad in a wait, and what its instruction reads; step 8
drops the request. -/
theorem cycleInputReadOnlyByItsReaders : Obligations.CycleInputReadOnlyByItsReaders := by
  unfold Obligations.CycleInputReadOnlyByItsReaders
  refine ⟨fun s c d hk hrnd => ?_, fun s c d hs hr hskp hsknp => ?_⟩
  · have hrun := runInstr_withInput s.unpause c d (fun x nn h => absurd h (hrnd x nn)) fun _ _ => hk
    exact answersAgree_eq (step_related rfl rfl rfl hk.symm rfl (s.captureKey_served_withInput hk) rfl rfl
      (answersAgree_of_eq hrun))
  · rw [step_of_running (s := s.withInput c) hs, step_of_running (s := s.withInput d) hs]
    exact runInstr_withInput s c d (fun _ _ _ => hr) fun x h => h.elim (absurd · (hskp x)) (absurd · (hsknp x))

/-! The register file and the stack's primitives (R21, R31). -/

/-- Settles O22: a register reads back what was last written to it, and a write to another leaves it. -/
theorem everyRegisterIsReadableAndWritable : Obligations.EveryRegisterIsReadableAndWritable := by
  unfold Obligations.EveryRegisterIsReadableAndWritable
  intro s r x b
  have hr : (s.setV r b).advance.getV r = b := State.getV_setV_self s r b
  have hread : exec (.ldReg x r) (s.setV r b).advance = .next ((s.setV r b).advance.setV x b).advance := by
    simp only [exec, execLdReg, hr]
  exact ⟨_, _, rfl, hr, fun _ hq => State.getV_setV_of_ne s b hq, hread, State.getV_setV_self _ x b,
    fun _ hq => State.getV_setV_of_ne _ b hq⟩

/-- Settles O30: push and pop, each in its two cases. -/
theorem pushAndPopAreTheStackPrimitives : Obligations.PushAndPopAreTheStackPrimitives := by
  unfold Obligations.PushAndPopAreTheStackPrimitives
  intro s a
  refine ⟨State.push_of_full a, fun h => ⟨_, State.push_of_lt a h, rfl, fun k hk => ?_, rfl⟩, State.pop_of_empty,
    fun h => ⟨_, State.pop_of_pos h, rfl, rfl⟩⟩
  simp only [Vector.getElem_set, eq_comm]

end Sys2Proof.Machine

/-! Memory (R50, R51, R57, R58). -/

namespace Sys2Proof.Machine

/-- A canonical memory lists exactly the addresses that do not read as 0x00, each with the byte read there. -/
theorem Memory.mem_iff_read {m : Memory} (hm : m.wf) (c : Host.Cell) :
    c ∈ m ↔ m.read c.1 = c.2 ∧ c.2 ≠ Memory.unlisted := by
  induction m with
  | nil => exact ⟨nofun, fun ⟨hread, hne⟩ => absurd hread.symm hne⟩
  | cons d m ih =>
    obtain ⟨hrising, hcells⟩ := hm
    obtain ⟨hhead, htail⟩ := List.pairwise_cons.1 hrising
    have ih := ih ⟨htail, fun e he => hcells e (List.mem_cons_of_mem d he)⟩
    rw [List.mem_cons, Memory.read]
    split
    · rename_i hd
      have hnotin : c ∉ m := fun hc => (hhead c hc).ne' hd
      have hbyte := (hcells d List.mem_cons_self).2
      constructor
      · rintro (rfl | hc)
        exacts [⟨rfl, hbyte⟩, absurd hc hnotin]
      · exact fun h => .inl (Prod.ext hd h.1.symm)
    · rename_i hd
      rw [← ih]
      exact or_iff_right fun hc => hd (congrArg Prod.fst hc)

/-- Settles O31: the bytes determine which cells are listed, and the rising addresses their order. -/
theorem canonicalMemoryIsExtensional : Obligations.CanonicalMemoryIsExtensional := by
  unfold Obligations.CanonicalMemoryIsExtensional
  intro m m' hm hm' hread
  refine List.Pairwise.eq_of_mem_iff hm.1 hm'.1 fun c => ?_
  rw [Memory.mem_iff_read hm, Memory.mem_iff_read hm', hread]

/-- An instruction leaves memory or stores its bytes from I upwards, as many as listed for it (R57). -/
theorem exec_mem_cases {i : Instr} {s t : State} (h : exec i s = .next t) :
    t.mem = s.mem ∨ ∃ bs, bs.length = storesBytes i ∧ t.mem = s.mem.writeBytes (s.dataAddr 0) bs := by
  cases i with
  | ldB x =>
    rcases exec_ldB_cases h with ⟨-, rfl⟩ | ⟨-, rfl⟩
    exacts [.inr ⟨_, rfl, rfl⟩, .inl rfl]
  | store x =>
    rcases exec_store_cases h with ⟨-, rfl⟩ | ⟨-, rfl⟩
    exacts [.inr ⟨_, s.length_regsUpTo x, rfl⟩, .inl rfl]
  | call nnn => rcases exec_call_cases h with ⟨-, rfl⟩ | ⟨-, rfl⟩ <;> exact .inl rfl
  | ret => rcases exec_ret_cases h with ⟨-, rfl⟩ | ⟨-, rfl⟩ <;> exact .inl rfl
  | drw x y n => rcases exec_drw_cases h with ⟨-, rfl⟩ | ⟨-, -, rfl⟩ <;> exact .inl rfl
  | skp x => rcases exec_skp_cases h with ⟨-, rfl⟩ | ⟨-, rfl⟩ <;> simp
  | sknp x => rcases exec_sknp_cases h with ⟨-, rfl⟩ | ⟨-, rfl⟩ <;> simp
  | load x => rcases exec_load_cases h with ⟨-, rfl⟩ | ⟨-, rfl⟩ <;> exact .inl rfl
  | _ => cases h; simp

/-- Settles O28: a byte outside the stored ones is not written. -/
theorem memoryChangedOnlyWhereStored : Obligations.MemoryChangedOnlyWhereStored := by
  unfold Obligations.MemoryChangedOnlyWhereStored
  intro i s t a h hout
  rcases exec_mem_cases h with hmem | ⟨bs, hlen, hmem⟩
  · rw [hmem]
  · rw [hmem]
    refine Memory.read_writeBytes_of_outside _ _ _ _ ?_
    have haddr : s.dataAddr 0 = s.i.toNat := rfl
    omega

end Sys2Proof.Machine

/-! Encoding and decoding (R70 to R82): one inversion of the decoder, what a word's decoding says about the word, and
the word of an instruction in each of the layouts of R71. -/

namespace Sys2Proof

/-! From an instruction to its word and back. -/

/-- R74, R75: the word of a well-formed instruction decodes to it, constructor by constructor. -/
theorem decode_encode {i : Instr} (h : i.wf = true) : decode (encode i) = .instr i :=
  match i with
  | .cls => Laws.Encoding.cls h
  | .ret => Laws.Encoding.ret h
  | .sys nnn => Laws.Encoding.sys nnn h
  | .jp nnn => Laws.Encoding.jp nnn h
  | .call nnn => Laws.Encoding.call nnn h
  | .seImm x nn => Laws.Encoding.seImm x nn h
  | .sneImm x nn => Laws.Encoding.sneImm x nn h
  | .seReg x y => Laws.Encoding.seReg x y h
  | .ldImm x nn => Laws.Encoding.ldImm x nn h
  | .addImm x nn => Laws.Encoding.addImm x nn h
  | .ldReg x y => Laws.Encoding.ldReg x y h
  | .or x y => Laws.Encoding.or x y h
  | .and x y => Laws.Encoding.and x y h
  | .xor x y => Laws.Encoding.xor x y h
  | .addReg x y => Laws.Encoding.addReg x y h
  | .sub x y => Laws.Encoding.sub x y h
  | .shr x y => Laws.Encoding.shr x y h
  | .subn x y => Laws.Encoding.subn x y h
  | .shl x y => Laws.Encoding.shl x y h
  | .sneReg x y => Laws.Encoding.sneReg x y h
  | .ldI nnn => Laws.Encoding.ldI nnn h
  | .jpV0 nnn => Laws.Encoding.jpV0 nnn h
  | .rnd x nn => Laws.Encoding.rnd x nn h
  | .drw x y n => Laws.Encoding.drw x y n h
  | .skp x => Laws.Encoding.skp x h
  | .sknp x => Laws.Encoding.sknp x h
  | .ldFromDt x => Laws.Encoding.ldFromDt x h
  | .ldK x => Laws.Encoding.ldK x h
  | .ldDt x => Laws.Encoding.ldDt x h
  | .ldSt x => Laws.Encoding.ldSt x h
  | .addI x => Laws.Encoding.addI x h
  | .ldF x => Laws.Encoding.ldF x h
  | .ldB x => Laws.Encoding.ldB x h
  | .store x => Laws.Encoding.store x h
  | .load x => Laws.Encoding.load x h

theorem decode_of_encode_eq {i : Instr} {w : Word} (hwf : i.wf = true) (h : encode i = w) : decode w = .instr i :=
  h ▸ decode_encode hwf

/-- Settles O1: the two bytes join to the instruction's word, which decodes to it. -/
theorem decodeOfEncodedBytesIsInstr : Obligations.DecodeOfEncodedBytesIsInstr := by
  unfold Obligations.DecodeOfEncodedBytesIsInstr
  intro i rest hwf
  simp only [encodeBytes, List.cons_append, List.nil_append, decodeBytes, wordOfBytes_highByte_lowByte,
    decode_encode hwf]

/-! From a word to its instruction and back: a word whose fixed fields are known is the packing of the rest. -/

section Fields

variable {w : Word} {op : BitVec 4}

theorem packNNN_of_fields (hop : (fieldOp w).toNat = op.toNat) : packNNN op (fieldNNN w) = w := by
  rw [← BitVec.eq_of_toNat_eq hop, packNNN_fields]

theorem packXNN_of_fields {nn : Byte} (hop : (fieldOp w).toNat = op.toNat) (hnn : fieldNN w = nn) :
    packXNN op (fieldX w) nn = w := by
  rw [← BitVec.eq_of_toNat_eq hop, ← hnn, packXNN_fields]

theorem packXYN_of_fields {n : Height} (hop : (fieldOp w).toNat = op.toNat) (hn : fieldN w = n) :
    packXYN op (fieldX w) (fieldY w) n = w := by
  rw [← BitVec.eq_of_toNat_eq hop, ← hn, packXYN_fields]

end Fields

/-- What is decoded says which word it was decoded from: a well-formed instruction has the word as its encoding, and
UNMATCHED carries the word (R74, R77). -/
def Decoded.Spells (w : Word) : Decoded → Prop
  | .instr i => i.wf = true ∧ encode i = w
  | .unmatched u => u = w

theorem decodeGroup0_spells {w : Word} (hop : (fieldOp w).toNat = 0x0) : (decodeGroup0 w).Spells w := by
  have hw : packNNN 0x0 (fieldNNN w) = w := packNNN_of_fields hop
  unfold decodeGroup0
  split
  · exact ⟨rfl, ‹w = 0x00E0›.symm⟩
  split
  · exact ⟨rfl, ‹w = 0x00EE›.symm⟩
  · refine ⟨?_, hw⟩
    have hE0 : fieldNNN w ≠ 0x0E0 := fun h => ‹w ≠ 0x00E0› (hw.symm.trans (congrArg (packNNN 0x0) h))
    have hEE : fieldNNN w ≠ 0x0EE := fun h => ‹w ≠ 0x00EE› (hw.symm.trans (congrArg (packNNN 0x0) h))
    exact Bool.and_eq_true_iff.2 ⟨bne_iff_ne.2 hE0, bne_iff_ne.2 hEE⟩

theorem decodeGroup8_spells {w : Word} (hop : (fieldOp w).toNat = 0x8) : (decodeGroup8 w).Spells w := by
  have hw {n : Height} (hn : (fieldN w).val = n.val) : packXYN 0x8 (fieldX w) (fieldY w) n = w :=
    packXYN_of_fields hop (Fin.ext hn)
  unfold decodeGroup8
  split
  case h_10 => rfl
  all_goals exact ⟨rfl, hw ‹_›⟩

theorem decodeGroupE_spells {w : Word} (hop : (fieldOp w).toNat = 0xE) : (decodeGroupE w).Spells w := by
  unfold decodeGroupE
  split
  · exact ⟨rfl, packXNN_of_fields hop ‹_›⟩
  split
  · exact ⟨rfl, packXNN_of_fields hop ‹_›⟩
  · rfl

theorem decodeGroupF_spells {w : Word} (hop : (fieldOp w).toNat = 0xF) : (decodeGroupF w).Spells w := by
  have hw {nn : Byte} (hnn : fieldNN w = nn) : packXNN 0xF (fieldX w) nn = w := packXNN_of_fields hop hnn
  unfold decodeGroupF
  repeat' split
  case isFalse => rfl
  all_goals exact ⟨rfl, hw ‹_›⟩

/-- What a word decodes to spells the word, op group by op group. -/
theorem decode_spells (w : Word) : (decode w).Spells w := by
  unfold decode
  split
  case h_1 hop => exact decodeGroup0_spells hop
  case h_9 hop => exact decodeGroup8_spells hop
  case h_15 hop => exact decodeGroupE_spells hop
  case h_16 =>
    have hlt := (fieldOp w).isLt
    simp only [imp_false] at *
    exact decodeGroupF_spells (by omega)
  case h_6 hop | h_10 hop =>
    split
    · exact ⟨rfl, packXYN_of_fields hop ‹_›⟩
    · rfl
  case h_2 hop | h_3 hop | h_11 hop | h_12 hop => exact ⟨rfl, packNNN_of_fields hop⟩
  case h_4 hop | h_5 hop | h_7 hop | h_8 hop | h_13 hop => exact ⟨rfl, packXNN_of_fields hop rfl⟩
  case h_14 hop => exact ⟨rfl, packXYN_of_fields hop rfl⟩

/-- Settles O2: the decoded instruction spells its word. -/
theorem encodeOfDecodedIsWord : Obligations.EncodeOfDecodedIsWord := by
  unfold Obligations.EncodeOfDecodedIsWord
  intro w i h
  have hw := decode_spells w
  rwa [h] at hw

/-! The opcode map on the number of a word (R74), one lemma per layout of R71. -/

section Layouts

variable {w : Word} {i : Instr} {op : BitVec 4} {x y : Reg}

theorem decode_of_packNNN {nnn : Addr} (hwf : i.wf = true) (hi : encode i = packNNN op nnn)
    (hop : w.toNat / 4096 = op.toNat) (hnnn : nnn.toNat = w.toNat % 4096) : decode w = .instr i := by
  refine decode_of_encode_eq hwf (BitVec.eq_of_toNat_eq ?_)
  rw [hi, packNNN_toNat]
  omega

theorem decode_of_packXNN {nn : Byte} (hwf : i.wf = true) (hi : encode i = packXNN op x nn)
    (hx : x.val = w.toNat / 256 % 16) (hop : w.toNat / 4096 = op.toNat) (hnn : w.toNat % 256 = nn.toNat) :
    decode w = .instr i := by
  refine decode_of_encode_eq hwf (BitVec.eq_of_toNat_eq ?_)
  rw [hi, packXNN_toNat]
  omega

theorem decode_of_packXYN {n : Height} (hwf : i.wf = true) (hi : encode i = packXYN op x y n)
    (hx : x.val = w.toNat / 256 % 16) (hy : y.val = w.toNat / 16 % 16) (hop : w.toNat / 4096 = op.toNat)
    (hn : w.toNat % 16 = n.val) : decode w = .instr i := by
  refine decode_of_encode_eq hwf (BitVec.eq_of_toNat_eq ?_)
  rw [hi, packXYN_toNat]
  omega

/-- R75: SYS is well formed when its word is none of the two exact ones. -/
theorem sys_wf_of_toNat {nnn : Addr} (hE0 : nnn.toNat ≠ 0x0E0) (hEE : nnn.toNat ≠ 0x0EE) :
    (Instr.sys nnn).wf = true :=
  Bool.and_eq_true_iff.2 ⟨bne_iff_ne.2 fun h => hE0 (congrArg BitVec.toNat h),
    bne_iff_ne.2 fun h => hEE (congrArg BitVec.toNat h)⟩

end Layouts

/-- Settles O3: each pattern's fields make the word the encoding of its operation. -/
theorem opcodeMapDecodesEveryPattern : Obligations.OpcodeMapDecodesEveryPattern := by
  unfold Obligations.OpcodeMapDecodesEveryPattern
  rintro w op n nn x y nnn imm h rfl hx hy rfl hh rfl himm hnnn
  have exact_word {i : Instr} (hwf : i.wf = true) (hw : w.toNat = (encode i).toNat) : decode w = .instr i :=
    decode_of_encode_eq hwf (BitVec.eq_of_toNat_eq hw.symm)
  refine ⟨exact_word (i := .cls) rfl, exact_word (i := .ret) rfl, fun hop hE0 hEE => ?sys,
    fun hop => ?jp, fun hop => ?call, fun hop => ?seImm, fun hop => ?sneImm, fun hop hn => ?seReg,
    fun hop => ?ldImm, fun hop => ?addImm, fun hop hn => ?ldReg, fun hop hn => ?or, fun hop hn => ?and,
    fun hop hn => ?xor, fun hop hn => ?addReg, fun hop hn => ?sub, fun hop hn => ?shr, fun hop hn => ?subn,
    fun hop hn => ?shl, fun hop hn => ?sneReg, fun hop => ?ldI, fun hop => ?jpV0, fun hop => ?rnd, fun hop => ?drw,
    fun hop hnn => ?skp, fun hop hnn => ?sknp, fun hop hnn => ?ldFromDt, fun hop hnn => ?ldK, fun hop hnn => ?ldDt,
    fun hop hnn => ?ldSt, fun hop hnn => ?addI, fun hop hnn => ?ldF, fun hop hnn => ?ldB, fun hop hnn => ?store,
    fun hop hnn => ?load⟩
  case sys => exact decode_of_packNNN (sys_wf_of_toNat (by omega) (by omega)) rfl hop hnnn
  case jp | call | ldI | jpV0 => exact decode_of_packNNN rfl rfl hop hnnn
  case seImm | sneImm | ldImm | addImm | rnd => exact decode_of_packXNN rfl rfl hx hop himm.symm
  case drw => exact decode_of_packXYN rfl rfl hx hy hop hh.symm
  case skp | sknp | ldFromDt | ldK | ldDt | ldSt | addI | ldF | ldB | store | load =>
    exact decode_of_packXNN rfl rfl hx hop hnn
  all_goals exact decode_of_packXYN rfl rfl hx hy hop hn

/-! The unmatched words (R76, R77), group by group. -/

/-- A pattern that selects an operation leaves UNMATCHED to the words it does not match. -/
theorem ite_instr_eq_unmatched_iff {c : Prop} [Decidable c] {i : Instr} {d : Decoded} {u : Word} :
    (if c then .instr i else d) = Decoded.unmatched u ↔ ¬c ∧ d = .unmatched u := by
  split_ifs with hc <;> simp [hc]

theorem unmatched_eq_iff {w u : Word} : Decoded.unmatched w = .unmatched u ↔ u = w := by
  rw [Decoded.unmatched.injEq, eq_comm]

theorem fieldN_eq_iff (w : Word) (n : Height) : fieldN w = n ↔ w.toNat % 16 = n.val := by
  rw [← fieldN_val, Fin.ext_iff]

theorem fieldNN_eq_iff (w : Word) (nn : Byte) : fieldNN w = nn ↔ w.toNat % 256 = nn.toNat := by
  rw [← fieldNN_toNat, BitVec.toNat_inj]

theorem decodeGroup0_ne_unmatched (w u : Word) : decodeGroup0 w ≠ .unmatched u := by
  simp only [decodeGroup0, ne_eq, ite_instr_eq_unmatched_iff, reduceCtorEq, and_false, not_false_eq_true]

theorem decodeGroup8_eq_unmatched_iff (w u : Word) :
    decodeGroup8 w = .unmatched u ↔ u = w ∧ w.toNat % 16 ∈ [0x8, 0x9, 0xA, 0xB, 0xC, 0xD, 0xF] := by
  rw [← fieldN_val]
  unfold decodeGroup8
  split
  case h_10 =>
    have hlt := (fieldN w).isLt
    simp only [imp_false] at *
    have hmem : (fieldN w).val ∈ [0x8, 0x9, 0xA, 0xB, 0xC, 0xD, 0xF] := by
      simp only [List.mem_cons, List.not_mem_nil, or_false]
      omega
    rw [unmatched_eq_iff, and_iff_left hmem]
  all_goals simp [*]

theorem decodeGroupE_eq_unmatched_iff (w u : Word) :
    decodeGroupE w = .unmatched u ↔ u = w ∧ w.toNat % 256 ∉ [0x9E, 0xA1] := by
  simp only [decodeGroupE, ite_instr_eq_unmatched_iff, unmatched_eq_iff, fieldNN_eq_iff, List.mem_cons,
    List.not_mem_nil, or_false, not_or]
  tauto

theorem decodeGroupF_eq_unmatched_iff (w u : Word) :
    decodeGroupF w = .unmatched u ↔
      u = w ∧ w.toNat % 256 ∉ [0x07, 0x0A, 0x15, 0x18, 0x1E, 0x29, 0x33, 0x55, 0x65] := by
  simp only [decodeGroupF, ite_instr_eq_unmatched_iff, unmatched_eq_iff, fieldNN_eq_iff, List.mem_cons,
    List.not_mem_nil, or_false, not_or]
  tauto

/-- Settles O4: the op groups 5, 8, 9, E and F each have their unmatched words, the others have none. -/
theorem unmatchedWordsAreExactlyTheFiveGroups : Obligations.UnmatchedWordsAreExactlyTheFiveGroups := by
  unfold Obligations.UnmatchedWordsAreExactlyTheFiveGroups
  intro w u
  rw [← fieldOp_toNat]
  unfold decode
  split
  case h_1 hop => simp [hop, decodeGroup0_ne_unmatched]
  case h_6 hop | h_10 hop =>
    rw [ite_instr_eq_unmatched_iff, unmatched_eq_iff, fieldN_eq_iff, and_comm]
    simp [hop]
  case h_9 hop => simp [hop, decodeGroup8_eq_unmatched_iff]
  case h_15 hop => simp [hop, decodeGroupE_eq_unmatched_iff]
  case h_16 =>
    have hlt := (fieldOp w).isLt
    simp only [imp_false] at *
    have hop : (fieldOp w).toNat = 0xF := by omega
    simp [hop, decodeGroupF_eq_unmatched_iff]
  all_goals simp [*]

/-! The fixed bits of a table row (R71, R74), one lemma per layout. -/

theorem packNNN_and (op op' : BitVec 4) (a a' : Addr) :
    packNNN op a &&& packNNN op' a' = packNNN (op &&& op') (a &&& a') := BitVec.and_append

theorem packNNN_and_F000 (op : BitVec 4) (a : Addr) : packNNN op a &&& 0xF000 = packNNN op 0 := by
  rw [show (0xF000 : Word) = packNNN (.allOnes 4) 0#12 from rfl, packNNN_and, BitVec.and_allOnes, BitVec.and_zero]
  rfl

theorem packXNN_and_F0FF (op : BitVec 4) (x : Reg) (nn : Byte) : packXNN op x nn &&& 0xF0FF = packXNN op 0 nn := by
  rw [packXNN, show (0xF0FF : Word) = packNNN (.allOnes 4) (0#4 ++ BitVec.allOnes 8) from rfl, packNNN_and,
    BitVec.and_append, BitVec.and_allOnes, BitVec.and_allOnes, BitVec.and_zero]
  rfl

theorem packXYN_and_F00F (op : BitVec 4) (x y : Reg) (n : Height) :
    packXYN op x y n &&& 0xF00F = packXYN op 0 0 n := by
  rw [packXYN, packXNN, show (0xF00F : Word) = packNNN (.allOnes 4) (0#4 ++ (0#4 ++ BitVec.allOnes 4)) from rfl,
    packNNN_and, BitVec.and_append, BitVec.and_append, BitVec.and_allOnes, BitVec.and_allOnes, BitVec.and_zero,
    BitVec.and_zero]
  rfl

/-- An instruction's word has the fixed bits of its row: whole, or up to its operands. -/
theorem encode_and_tableMask (i : Instr) : encode i &&& tableMask i = tableMatch i := by
  cases i
  case cls | ret => rfl
  case skp | sknp | ldFromDt | ldK | ldDt | ldSt | addI | ldF | ldB | store | load => exact packXNN_and_F0FF _ _ _
  case seReg | ldReg | or | and | xor | addReg | sub | shr | subn | shl | sneReg => exact packXYN_and_F00F _ _ _ _
  all_goals exact packNNN_and_F000 _ _

/-- Settles O5: the word is the instruction's encoding, and that has the row's fixed bits. -/
theorem decodedWordMatchesItsTableRow : Obligations.DecodedWordMatchesItsTableRow := by
  unfold Obligations.DecodedWordMatchesItsTableRow
  intro w i h
  obtain ⟨-, hw⟩ := encodeOfDecodedIsWord w i h
  rw [← hw, encode_and_tableMask]

/-- Settles O6: each word evaluates. -/
theorem decoderVectorsOfTheSpec : Obligations.DecoderVectorsOfTheSpec := by
  unfold Obligations.DecoderVectorsOfTheSpec
  decide

end Sys2Proof

/-! Fetch unit and cycle engine (R91 to R107). -/

namespace Sys2Proof.Machine

/-! The fetch, one equation per outcome (R96). -/

section Fetch

variable {s t : State}

theorem State.wordAtPc_toNat (s : State) :
    s.wordAtPc.toNat = 256 * (s.mem.read s.pc.toNat).toNat + (s.mem.read (s.pc.toNat + 1)).toNat := by
  have hhi := (s.mem.read s.pc.toNat).isLt
  have hlo := (s.mem.read (s.pc.toNat + 1)).isLt
  rw [State.wordAtPc, BitVec.toNat_ofNat]
  omega

theorem State.fetch_of_outOfRange (h : s.pc.toNat > 4094) : s.fetch = .error (.fetchOutOfRange s.pc) :=
  if_pos h

theorem State.fetch_of_misaligned (hr : s.pc.toNat ≤ 4094) (hodd : s.pc.toNat % 2 = 1)
    (hp : s.params.oddPcFetch = .fault) : s.fetch = .error (.misalignedFetch s.pc) := by
  rw [State.fetch, if_neg (Nat.not_lt.2 hr), if_pos ⟨hodd, hp⟩]

theorem State.fetch_of_fetchOk (h : s.fetchOk) : s.fetch = .ok s.wordAtPc := by
  obtain ⟨hr, hpar⟩ := h
  rcases s.fetch_cases with ⟨hout, -⟩ | ⟨-, hodd, hp, -⟩ | ⟨-, hok⟩
  · omega
  · rcases hpar with heven | hfetch
    · omega
    · rw [hp] at hfetch; cases hfetch
  · exact hok

/-- Settles O14: the two checks in their order, then the word read. -/
theorem fetchChecksThenReadsBigEndian : Obligations.FetchChecksThenReadsBigEndian := by
  unfold Obligations.FetchChecksThenReadsBigEndian
  exact fun s => ⟨State.fetch_of_outOfRange, State.fetch_of_misaligned,
    fun hr hpar => ⟨_, State.fetch_of_fetchOk ⟨hr, hpar⟩, s.wordAtPc_toNat⟩⟩

/-! Steps 3 to 8, one equation per outcome of the fetch (R102). -/

theorem runInstr_of_fetch_error {r : Fault} (h : s.fetch = .error r) :
    runInstr s = .next (s.tickTimers.raiseFault r).served := by
  have htick : s.tickTimers.fetch = .error r := h
  rw [runInstr, htick]

theorem runInstr_of_fetchOk (h : s.fetchOk) : runInstr s = endCall (execWord s.wordAtPc s.tickTimers) := by
  have htick : s.tickTimers.fetch = .ok s.wordAtPc := State.fetch_of_fetchOk (s := s.tickTimers) h
  rw [runInstr, htick]

/-- What steps 3 to 8 can do, by the fetch's checks. -/
theorem runInstr_fetch_cases (h : runInstr s = .next t) :
    (¬ s.fetchOk ∧ ∃ r, s.fetch = .error r ∧ t = (s.tickTimers.raiseFault r).served) ∨
    (s.fetchOk ∧ ∃ u, execWord s.wordAtPc s.tickTimers = .next u ∧ t = u.pauseAfter.served) := by
  rcases runInstr_cases h with ⟨r, hr, rfl⟩ | ⟨u, -, hok, hu, rfl⟩
  · have herr : s.fetch = .error r := hr
    refine .inl ⟨fun hok => ?_, r, herr, rfl⟩
    rw [State.fetch_of_fetchOk hok] at herr
    cases herr
  · exact .inr ⟨hok, u, hu, rfl⟩

end Fetch

/-! Dispatch, one equation per kind of word (R98). -/

section Dispatch

variable {s t : State} {w u : Word} {i : Instr}

theorem execWord_of_instr (s : State) (h : decode w = .instr i) : execWord w s = exec i s := by
  rw [execWord, h]

theorem decode_unmatched_eq (h : decode w = .unmatched u) : u = w :=
  ((unmatchedWordsAreExactlyTheFiveGroups w u).1 h).1

theorem execWord_of_unmatched (s : State) (h : decode w = .unmatched u) : execWord w s = execUnmatched w s := by
  rw [execWord, h, decode_unmatched_eq h]

/-- Settles O8: the two kinds of word. -/
theorem dispatchExecutesOrLogsUnmatched : Obligations.DispatchExecutesOrLogsUnmatched := by
  unfold Obligations.DispatchExecutesOrLogsUnmatched
  exact fun s w => ⟨fun i hi => execWord_of_instr s hi,
    fun u hu => ⟨decode_unmatched_eq hu, execWord_of_unmatched s hu⟩⟩

/-- Settles O7: the fetch answers the word at pc, and dispatch executes what it decodes to. -/
theorem stepRunsTheDecodedInstruction : Obligations.StepRunsTheDecodedInstruction := by
  unfold Obligations.StepRunsTheDecodedInstruction
  intro s t i hrun hok hi ht
  rw [step_of_running hrun, runInstr_of_fetchOk hok, execWord_of_instr _ hi, ht]
  rfl

/-- The saturating decrement is the subtraction of naturals (R200). -/
theorem satDec_toNat (b : Byte) : (satDec b).toNat = b.toNat - 1 := by
  unfold satDec
  split
  · simp_all
  · bv_omega

/-- Settles O9: the fetch answers the word at pc, and dispatch logs it. -/
theorem stepOnUnmatchedWordIsALoggedNoOp : Obligations.StepOnUnmatchedWordIsALoggedNoOp := by
  unfold Obligations.StepOnUnmatchedWordIsALoggedNoOp
  intro s u hrun hok hu
  have hstep : step s = .next (s.tickTimers.logEvent (.unmatchedOpcode s.wordAtPc)).advance.pauseAfter.served := by
    rw [step_of_running hrun, runInstr_of_fetchOk hok, execWord_of_unmatched _ hu]
    rfl
  obtain ⟨hf, -, hp⟩ := hrun
  refine ⟨_, hstep, by simp, by simp, by simp [satDec_toNat], by simp [satDec_toNat], by simp [hf, hp], by simp, ?_⟩
  rw [State.pauseAfter_eq]
  rfl

end Dispatch

end Sys2Proof.Machine

/-! Steps 0 to 2 of a call (R92 to R94). -/

namespace Sys2Proof.Machine

/-! The response (R90, R92, R100). -/

theorem State.response_of_fault {s : State} {r : Fault} (h : s.fault = some r) : s.response = .error r := by
  rw [State.response, h]

theorem State.response_of_noFault {s : State} (h : s.fault = none) : s.response = .ok s.fb := by
  rw [State.response, h]

/-- Settles O10: step 0 answers the recorded reason. -/
theorem faultedCoreHasNoStep : Obligations.FaultedCoreHasNoStep := by
  unfold Obligations.FaultedCoreHasNoStep
  exact fun s r hf => ⟨step_of_fault hf, State.response_of_fault hf⟩

/-! The key capture (R93). -/

section Capture

variable {s : State}

theorem State.captureKey_of_lowest {k : Fin 16} (h : lowestPressed s.input.keypad = some k) :
    s.captureKey = ({ s with latch := false } : State).setV s.latchDest (BitVec.ofNat 8 k.val) := by
  rw [State.captureKey, h]

theorem State.captureKey_of_noKey (h : ∀ k : Fin 16, s.input.keypad[k.val] = false) : s.captureKey = s := by
  rw [State.captureKey, lowestPressed_eq_none.2 h]

theorem State.captureKey_latch_of_pressed (h : ∃ k : Fin 16, s.input.keypad[k.val] = true) :
    s.captureKey.latch = false := by
  obtain ⟨k, hk⟩ := Option.isSome_iff_exists.1 (anyPressed_iff.2 h)
  rw [State.captureKey_of_lowest hk, State.setV_latch]

theorem State.captureKey_fault (s : State) : s.captureKey.fault = s.fault := by rw [State.captureKey_eq]

theorem State.captureKey_paused (s : State) : s.captureKey.paused = s.paused := by rw [State.captureKey_eq]

/-- Settles O11: a pressed line with none below it is the one the capture takes. -/
theorem keypressWaitCapturesLowestKey : Obligations.KeypressWaitCapturesLowestKey := by
  unfold Obligations.KeypressWaitCapturesLowestKey
  intro s hf hl
  have hstep := step_of_latch hf hl
  refine ⟨fun k hk hlow => ?_, fun hnone => ?_⟩
  · rw [State.captureKey_of_lowest (lowestPressed_eq_some.2 ⟨hk, hlow⟩)] at hstep
    refine ⟨_, hstep, ?_, fun r hr => State.getV_setV_of_ne _ _ hr, rfl, State.response_of_noFault hf⟩
    rw [State.getV_setV_self, BitVec.toNat_ofNat]
    omega
  · rw [State.captureKey_of_noKey hnone] at hstep
    exact ⟨hstep, State.response_of_noFault hf⟩

end Capture

/-! The single-step pause (R94). -/

theorem anyPressed_eq_false_iff {kp : Keypad} : anyPressed kp = false ↔ ∀ k : Fin 16, kp[k.val] = false := by
  rw [← Bool.not_eq_true, anyPressed_iff]
  simp

/-- Settles O12: a pressed line clears the pause, and the parameter decides whether the unpaused state runs. -/
theorem singleStepPauseEndsOnAnyKey : Obligations.SingleStepPauseEndsOnAnyKey := by
  unfold Obligations.SingleStepPauseEndsOnAnyKey
  intro s hf hl hp
  refine ⟨fun hnone => step_of_pausedNoKey hf hl hp (anyPressed_eq_false_iff.2 hnone), fun k hk => ?_⟩
  rw [step_of_pausedKey hf hl hp (anyPressed_iff.2 ⟨k, hk⟩)]
  refine ⟨fun hfall => ?_, fun hfall => ?_⟩
  · rw [hfall]
    rfl
  · rw [hfall, if_pos rfl]
    exact (step_of_running (s := s.unpause) ⟨hf, hl, rfl⟩).symm

/-! Which calls reach step 3 (R91, R94). -/

section Step

variable {s t : State}

theorem step_of_reachesStep3 (h : s.reachesStep3) : step s = runInstr s.unpause := by
  obtain ⟨hf, hl, hpause⟩ := h
  cases hp : s.paused with
  | false => rw [State.unpause_of_not_paused hp, step_of_running ⟨hf, hl, hp⟩]
  | true =>
    obtain ⟨hkey, hfall⟩ := hpause hp
    rw [step_of_pausedKey hf hl hp (anyPressed_iff.2 hkey), hfall, if_pos rfl]

/-- A call that does not reach step 3 ends in the wait or in the pause. -/
theorem step_blocked_cases (h : step s = .next t) (hn : ¬ s.reachesStep3) :
    t = s.captureKey.served ∨ t = s.served ∨ t = s.unpause.served := by
  obtain ⟨hf, ⟨-, ht⟩ | ⟨-, -, -, ht⟩ | ⟨-, -, -, -, ht⟩ | ⟨hl, hpause, -⟩⟩ := step_cases h
  · exact .inl ht
  · exact .inr (.inl ht)
  · exact .inr (.inr ht)
  · exact absurd ⟨hf, hl, fun hp => (hpause hp).imp_left anyPressed_iff.1⟩ hn

/-- What a call that reaches step 3 can do, by the fetch's checks. -/
theorem step_reachesStep3_cases (h : step s = .next t) (h3 : s.reachesStep3) :
    (¬ s.fetchOk ∧ ∃ r, s.fetch = .error r ∧ t = (s.unpause.tickTimers.raiseFault r).served) ∨
    (s.fetchOk ∧ ∃ u, execWord s.wordAtPc s.unpause.tickTimers = .next u ∧ t = u.pauseAfter.served) := by
  rw [step_of_reachesStep3 h3] at h
  exact runInstr_fetch_cases h

end Step

/-! What the dispatch of a word leaves unchanged (R33, R35, R36). -/

section Frame

variable {s t : State} {i : Instr} {w : Word}

theorem exec_dt (h : exec i s = .next t) (hi : ∀ x, i ≠ .ldDt x) : t.dt = s.dt := by
  obtain ⟨-, -, -, hdt, -⟩ := stateElementsChangedOnlyByTheirWriters i s t h
  exact not_ne_iff.1 fun hne => (hdt hne).elim hi

theorem exec_st (h : exec i s = .next t) (hi : ∀ x, i ≠ .ldSt x) : t.st = s.st := by
  obtain ⟨-, -, -, -, hst, -⟩ := stateElementsChangedOnlyByTheirWriters i s t h
  exact not_ne_iff.1 fun hne => (hst hne).elim hi

theorem exec_latch (h : exec i s = .next t) (hi : ∀ x, i ≠ .ldK x) : t.latch = s.latch := by
  obtain ⟨-, -, -, -, -, -, hlatch, -⟩ := stateElementsChangedOnlyByTheirWriters i s t h
  exact not_ne_iff.1 fun hne => (hlatch hne).2.elim hi

theorem execWord_dt (h : execWord w s = .next t) (hw : ∀ x, decode w ≠ .instr (.ldDt x)) : t.dt = s.dt := by
  rcases execWord_cases h with ⟨i, hi, he⟩ | ⟨u, -, rfl⟩
  · exact exec_dt he fun x hx => hw x (hx ▸ hi)
  · rfl

theorem execWord_st (h : execWord w s = .next t) (hw : ∀ x, decode w ≠ .instr (.ldSt x)) : t.st = s.st := by
  rcases execWord_cases h with ⟨i, hi, he⟩ | ⟨u, -, rfl⟩
  · exact exec_st he fun x hx => hw x (hx ▸ hi)
  · rfl

theorem execWord_latch (h : execWord w s = .next t) (hw : ∀ x, decode w ≠ .instr (.ldK x)) : t.latch = s.latch := by
  rcases execWord_cases h with ⟨i, hi, he⟩ | ⟨u, -, rfl⟩
  · exact exec_latch he fun x hx => hw x (hx ▸ hi)
  · rfl

theorem execWord_paused (h : execWord w s = .next t) : t.paused = s.paused := by
  rcases execWord_cases h with ⟨i, -, he⟩ | ⟨u, -, rfl⟩
  · exact exec_paused he
  · rfl

end Frame

/-- Settles O13: the tick comes before the fetch, and only FX15 and FX18 write a timer after it. -/
theorem timersTickOncePerUnblockedCall : Obligations.TimersTickOncePerUnblockedCall := by
  unfold Obligations.TimersTickOncePerUnblockedCall
  intro s t h
  refine ⟨fun h3 => ?_, fun hn => ?_⟩
  · rcases step_reachesStep3_cases h h3 with ⟨hbad, r, -, rfl⟩ | ⟨hok, u, hu, rfl⟩
    · exact ⟨fun _ => satDec_toNat s.dt, fun _ => satDec_toNat s.st, fun hok => absurd hok hbad⟩
    · refine ⟨fun hw => ?_, fun hw => ?_, fun _ x => ⟨fun hx => ?_, fun hx => ?_, fun hx => ?_⟩⟩
      · have hdt := execWord_dt hu (hw.resolve_left (not_not_intro hok))
        rw [State.served_dt, State.pauseAfter_dt, hdt]
        exact satDec_toNat s.dt
      · have hst := execWord_st hu (hw.resolve_left (not_not_intro hok))
        rw [State.served_st, State.pauseAfter_st, hst]
        exact satDec_toNat s.st
      all_goals
        rw [execWord_of_instr _ hx] at hu
        cases hu
        simp [satDec_toNat]
  · rcases step_blocked_cases h hn with rfl | rfl | rfl
    · rw [State.captureKey_eq]
      exact ⟨rfl, rfl⟩
    · exact ⟨rfl, rfl⟩
    · exact ⟨rfl, rfl⟩

/-- PAUSED after a call that reaches step 3 (R100): the pause was cleared before, and no instruction writes it. -/
theorem step_paused_of_reachesStep3 {s t : State} (h : step s = .next t) (h3 : s.reachesStep3) :
    t.paused = true ↔ t.fault = none ∧ s.params.debugLevel = 3 := by
  rcases step_reachesStep3_cases h h3 with ⟨-, r, -, rfl⟩ | ⟨-, u, hu, rfl⟩
  · simp
  · simp [execWord_paused hu, execWord_params hu]

/-- Settles O15: step 8 alone sets PAUSED, and the response reads FAULT and the framebuffer. -/
theorem pauseAndResponseAtStepEight : Obligations.PauseAndResponseAtStepEight := by
  unfold Obligations.PauseAndResponseAtStepEight
  intro s t h
  refine ⟨State.response_of_noFault, fun r => State.response_of_fault, step_paused_of_reachesStep3 h, fun hn => ?_⟩
  rcases step_blocked_cases h hn with rfl | rfl | rfl
  · rw [State.captureKey_eq]
    exact ⟨rfl, id⟩
  · exact ⟨rfl, id⟩
  · exact ⟨rfl, nofun⟩

end Sys2Proof.Machine

/-! The engine states (R36, R103). -/

namespace Sys2Proof.Machine

/-- The engine state as a chain of conditions on the flags. -/
theorem State.engine_eq (s : State) :
    s.engine = if s.fault ≠ none then .faulted else if s.latch then .waitingForKey
      else if s.paused then .singleStepPaused else .running := by
  unfold State.engine
  cases s.fault <;> simp

section EngineOf

variable {s : State}

theorem State.engine_eq_faulted_iff : s.engine = .faulted ↔ s.fault ≠ none := by
  rw [State.engine_eq]
  split_ifs <;> simp_all

theorem State.engine_eq_waitingForKey_iff : s.engine = .waitingForKey ↔ s.fault = none ∧ s.latch = true := by
  rw [State.engine_eq]
  split_ifs <;> simp_all

theorem State.engine_eq_singleStepPaused_iff :
    s.engine = .singleStepPaused ↔ s.fault = none ∧ s.latch = false ∧ s.paused = true := by
  rw [State.engine_eq]
  split_ifs <;> simp_all

theorem State.engine_eq_running_iff : s.engine = .running ↔ s.isRunning := by
  rw [State.engine_eq]
  split_ifs <;> simp_all [State.isRunning]

end EngineOf

/-- Serving the request leaves the flags. -/
theorem State.engine_served (s : State) : s.served.engine = s.engine := rfl

section Rows

variable {s t : State}

theorem State.reachesStep3_of_isRunning (h : s.isRunning) : s.reachesStep3 := by
  obtain ⟨hf, hl, hp⟩ := h
  exact ⟨hf, hl, fun hp' => by rw [hp] at hp'; cases hp'⟩

theorem engine_of_wait_noKey (h : step s = .next t) (hs : s.engine = .waitingForKey)
    (hk : ∀ k : Fin 16, s.input.keypad[k.val] = false) : t.engine = .waitingForKey := by
  obtain ⟨hf, hl⟩ := State.engine_eq_waitingForKey_iff.1 hs
  rw [step_of_latch hf hl, State.captureKey_of_noKey hk] at h
  cases h
  exact hs

theorem engine_of_wait_key (h : step s = .next t) (hs : s.engine = .waitingForKey)
    (hk : ∃ k : Fin 16, s.input.keypad[k.val] = true) :
    t.engine = if s.paused then .singleStepPaused else .running := by
  obtain ⟨hf, hl⟩ := State.engine_eq_waitingForKey_iff.1 hs
  rw [step_of_latch hf hl] at h
  cases h
  simp [State.engine_served, State.engine_eq s.captureKey, State.captureKey_fault, State.captureKey_paused, hf,
    State.captureKey_latch_of_pressed hk]

/-- The three rows of the single-step pause. -/
theorem engine_of_pause (h : step s = .next t) (hs : s.engine = .singleStepPaused) :
    ((∀ k : Fin 16, s.input.keypad[k.val] = false) → t.engine = .singleStepPaused) ∧
    ((∃ k : Fin 16, s.input.keypad[k.val] = true) →
      (s.params.singleStepFallthrough = false → t.engine = .running) ∧
      (s.params.singleStepFallthrough = true → s.unpause.engine = .running ∧ step s.unpause = .next t)) := by
  obtain ⟨hf, hl, hp⟩ := State.engine_eq_singleStepPaused_iff.1 hs
  obtain ⟨hnone, hkey⟩ := singleStepPauseEndsOnAnyKey s hf hl hp
  have hunpause : s.unpause.engine = .running := State.engine_eq_running_iff.2 ⟨hf, hl, rfl⟩
  refine ⟨fun hk => ?_, fun ⟨k, hk⟩ => ⟨fun hfall => ?_, fun hfall => ⟨hunpause, ?_⟩⟩⟩
  · rw [hnone hk] at h
    cases h
    exact hs
  · rw [(hkey k hk).1 hfall] at h
    cases h
    exact hunpause
  · exact ((hkey k hk).2 hfall).symm.trans h

theorem step_fault_of_fetch_error (h : step s = .next t) (hs : s.isRunning) {r : Fault} (hr : s.fetch = .error r) :
    t.fault = some r := by
  rw [step_of_running hs, runInstr_of_fetch_error hr] at h
  cases h
  rfl

theorem engine_of_running_not_fetchOk (h : step s = .next t) (hs : s.isRunning) (hbad : ¬ s.fetchOk) :
    t.engine = .faulted := by
  rcases step_reachesStep3_cases h (State.reachesStep3_of_isRunning hs) with ⟨-, r, -, rfl⟩ | ⟨hok, -⟩
  · rfl
  · exact absurd hok hbad

theorem engine_of_ldK (h : step s = .next t) (hs : s.isRunning) (hok : s.fetchOk) {x : Reg}
    (hx : decode s.wordAtPc = .instr (.ldK x)) :
    t.engine = .waitingForKey ∧ t.latchDest = x ∧ t.pc = s.pc + 2 ∧ (t.paused = true ↔ s.params.debugLevel = 3) := by
  rcases step_reachesStep3_cases h (State.reachesStep3_of_isRunning hs) with ⟨hbad, -⟩ | ⟨-, u, hu, rfl⟩
  · exact absurd hok hbad
  · obtain ⟨hf, -, -⟩ := hs
    rw [execWord_of_instr _ hx] at hu
    cases hu
    exact ⟨State.engine_eq_waitingForKey_iff.2 ⟨by simp [hf], by simp⟩, by simp, by simp, by simp [hf]⟩

theorem engine_of_running_not_ldK (h : step s = .next t) (hs : s.isRunning) (hok : s.fetchOk)
    (hx : ∀ x, decode s.wordAtPc ≠ .instr (.ldK x)) :
    t.engine = if t.fault ≠ none then .faulted else if s.params.debugLevel = 3 then .singleStepPaused else .running := by
  have h3 := State.reachesStep3_of_isRunning hs
  have hpaused := step_paused_of_reachesStep3 h h3
  have hlatch : t.latch = false := by
    rcases step_reachesStep3_cases h h3 with ⟨hbad, -⟩ | ⟨-, u, hu, rfl⟩
    · exact absurd hok hbad
    · rw [State.served_latch, State.pauseAfter_latch, execWord_latch hu hx]
      exact hs.2.1
  rw [State.engine_eq]
  split_ifs <;> simp_all

end Rows

/-- Settles O16: one lemma per row, with the flags of each engine state. -/
theorem engineStateTransitions : Obligations.EngineStateTransitions := by
  unfold Obligations.EngineStateTransitions
  refine ⟨fun s hs => ?_, fun s t h => ⟨engine_of_wait_noKey h, engine_of_wait_key h,
    fun hs => (engine_of_pause h hs).1, fun hs hk => ((engine_of_pause h hs).2 hk).1,
    fun hs hk => ((engine_of_pause h hs).2 hk).2, fun hs => ?_, fun hs hr => ?_, fun hs hr hodd hp => ?_,
    fun hs hok x hx => ?_, fun hs => ?_⟩⟩
  · obtain ⟨r, hr⟩ := Option.ne_none_iff_exists'.1 (State.engine_eq_faulted_iff.1 hs)
    exact ⟨r, hr, step_of_fault hr⟩
  all_goals rw [State.engine_eq_running_iff] at hs
  · exact engine_of_running_not_fetchOk h hs
  · exact step_fault_of_fetch_error h hs (State.fetch_of_outOfRange hr)
  · exact step_fault_of_fetch_error h hs (State.fetch_of_misaligned hr hodd hp)
  · exact engine_of_ldK h hs hok hx
  · exact engine_of_running_not_ldK h hs

end Sys2Proof.Machine

/-! Debug levels below 3 (R107). -/

namespace Sys2Proof.Machine

theorem State.push_atLevel (s : State) (d : Config.DebugLevel) (a : Word) :
    (s.atLevel d).push a = (s.push a).map fun t => t.atLevel d := by
  simp only [State.push, apply_dite (Option.map _)]
  rfl

theorem State.pop_atLevel (s : State) (d : Config.DebugLevel) :
    (s.atLevel d).pop = s.pop.map fun p => (p.1, p.2.atLevel d) := by
  simp only [State.pop, apply_dite (Option.map _)]
  rfl

theorem State.writeResultAndFlag_atLevel (s : State) (d : Config.DebugLevel) (x : Reg) (r f : Byte) :
    (s.atLevel d).writeResultAndFlag x r f = (s.writeResultAndFlag x r f).atLevel d := by
  unfold State.writeResultAndFlag
  split <;> rfl

theorem State.skipIf_atLevel (s : State) (d : Config.DebugLevel) (c : Bool) :
    (s.atLevel d).skipIf c = (s.skipIf c).atLevel d := by
  cases c <;> rfl

theorem State.captureKey_atLevel (s : State) (d : Config.DebugLevel) :
    (s.atLevel d).captureKey = s.captureKey.atLevel d := by
  have hinput : (s.atLevel d).input = s.input := rfl
  unfold State.captureKey
  rw [hinput]
  cases lowestPressed s.input.keypad <;> rfl

/-- No instruction reads the debug level (R41). -/
theorem exec_atLevel (i : Instr) (s : State) (d : Config.DebugLevel) :
    exec i (s.atLevel d) = mapNext (fun t => t.atLevel d) (exec i s) := by
  cases i with
  | call nnn =>
    have hpush : (s.atLevel d).push (s.atLevel d).pc = (s.push s.pc).map fun t => t.atLevel d :=
      s.push_atLevel d s.pc
    simp only [exec, execCall, hpush]
    cases s.push s.pc <;> rfl
  | ret =>
    simp only [exec, execRet, s.pop_atLevel d]
    cases s.pop <;> rfl
  | skp x | sknp x =>
    have hline : (s.atLevel d).keyLine x = s.keyLine x := rfl
    simp only [exec, execSkp, execSknp, hline]
    cases s.keyLine x with
    | some pressed => exact congrArg (fun t : State => Host.Outcome.next t.advance) (s.skipIf_atLevel d _)
    | none => rfl
  | addReg x y | sub x y | subn x y | shr x y | shl x y =>
    exact congrArg (fun t : State => Host.Outcome.next t.advance) (s.writeResultAndFlag_atLevel d x _ _)
  | seImm x nn | sneImm x nn | seReg x y | sneReg x y =>
    exact congrArg (fun t : State => Host.Outcome.next t.advance) (s.skipIf_atLevel d _)
  | drw x y n => simp only [exec, execDrw, apply_ite (mapNext _)]; rfl
  | ldB x => simp only [exec, execLdB, apply_ite (mapNext _)]; rfl
  | store x => simp only [exec, execStore, apply_ite (mapNext _)]; rfl
  | load x => simp only [exec, execLoad, apply_ite (mapNext _)]; rfl
  | _ => rfl

theorem execWord_atLevel (w : Word) (s : State) (d : Config.DebugLevel) :
    execWord w (s.atLevel d) = mapNext (fun t => t.atLevel d) (execWord w s) := by
  cases hw : decode w with
  | instr i => rw [execWord_of_instr _ hw, execWord_of_instr _ hw, exec_atLevel]
  | unmatched u => rw [execWord_of_unmatched _ hw, execWord_of_unmatched _ hw]; rfl

/-- Below level 3 step 8 sets no pause (R100). -/
theorem State.pauseAfter_of_ne_three {s : State} (h : s.params.debugLevel ≠ 3) : s.pauseAfter = s :=
  if_neg fun h3 => h h3.2

/-- An answer related to another by a function is its image. -/
theorem answersAgree_mapNext_iff {f : State → State} {a b : Answer} :
    answersAgree (fun u v => v = f u) a b ↔ b = mapNext f a := by
  cases a <;> cases b <;> simp [answersAgree, mapNext, eq_comm]

/-- Settles O17: the level is read in step 8 alone, where two levels below 3 set no pause. -/
theorem debugLevelsBelowThreeGiveOneStep : Obligations.DebugLevelsBelowThreeGiveOneStep := by
  unfold Obligations.DebugLevelsBelowThreeGiveOneStep
  intro s d e hd he
  refine answersAgree_mapNext_iff.1 (step_related rfl rfl rfl rfl rfl ?_ rfl rfl ?_)
  · rw [State.captureKey_atLevel, State.captureKey_atLevel]
    rfl
  · refine runInstr_related rfl (fun _ => rfl) ?_
    have hlevel : (s.atLevel e).unpause.tickTimers = (s.atLevel d).unpause.tickTimers.atLevel e := rfl
    rw [hlevel, execWord_atLevel]
    refine answersAgree_mapNext fun u hu => ?_
    have hu3 : u.params.debugLevel ≠ 3 := by
      rw [execWord_params hu]
      exact hd
    rw [State.pauseAfter_of_ne_three hu3, State.pauseAfter_of_ne_three (s := u.atLevel e) he]
    rfl

end Sys2Proof.Machine

/-! Control transfer (R120 to R128). -/

namespace Sys2Proof.Machine

/-! The word of an instruction in each of the layouts of R71, as the number it is. -/

section Words

variable {n : Nat} {i : Instr} {op : BitVec 4} {x y : Reg}

/-- A number is a well-formed instruction's word when it is the number of its encoding. -/
theorem encodedAs_of_wf (hwf : i.wf = true) (hn : (encode i).toNat = n) : EncodedAs n i :=
  encodedAs_of_encode (decode_encode hwf) hn

theorem encodedAs_of_packNNN {nnn : Addr} (hwf : i.wf = true) (hi : encode i = packNNN op nnn)
    (hn : op.toNat * 4096 + nnn.toNat = n) : EncodedAs n i :=
  encodedAs_of_wf hwf (by rw [hi, packNNN_toNat, hn])

theorem encodedAs_of_packXNN {nn : Byte} (hwf : i.wf = true) (hi : encode i = packXNN op x nn)
    (hn : op.toNat * 4096 + 256 * x.val + nn.toNat = n) : EncodedAs n i :=
  encodedAs_of_wf hwf (by rw [hi, packXNN_toNat, Nat.mul_comm x.val, hn])

theorem encodedAs_of_packXYN {h : Height} (hwf : i.wf = true) (hi : encode i = packXYN op x y h)
    (hn : op.toNat * 4096 + 256 * x.val + 16 * y.val + h.val = n) : EncodedAs n i :=
  encodedAs_of_wf hwf (by rw [hi, packXYN_toNat, Nat.mul_comm x.val, Nat.mul_comm y.val, hn])

end Words

/-! CALL and RET, one equation per outcome (R122, R123). -/

section CallAndRet

variable {s : State}

theorem exec_call_of_lt (nnn : Addr) (h : s.sp.val < 16) :
    exec (.call nnn) s =
      .next (({ s with stack := s.stack.set s.sp.val s.pc, sp := ⟨s.sp.val + 1, by omega⟩ } : State).jumpTo
        (zextAddr nnn)) := by
  simp only [exec, execCall, State.push_of_lt s.pc h]

theorem exec_call_of_full (nnn : Addr) (h : s.sp.val = 16) :
    Faults (.call nnn) s (.stackOverflow s.pc (encode (.call nnn))) := by
  simp only [Faults, exec, execCall, State.push_of_full s.pc h]
  rfl

theorem exec_ret_of_pos (h : 0 < s.sp.val) :
    exec .ret s =
      .next (({ s with sp := ⟨s.sp.val - 1, by omega⟩ } : State).jumpTo
        (s.stack[s.sp.val - 1]'(by omega) + s.params.retResumeOffset.toWord)) := by
  simp only [exec, execRet, State.pop_of_pos h]

theorem exec_ret_of_empty (h : s.sp.val = 0) : exec .ret s = .next (s.logEvent .emptyStackReturn) := by
  simp only [exec, execRet, State.pop_of_empty h]

end CallAndRet

/-- Settles O41: the slot that RET pops is the one where CALL put its own address, and the slots below it are CALL's. -/
theorem callThenRetRestoresTheStackPointer : Obligations.CallThenRetRestoresTheStackPointer := by
  unfold Obligations.CallThenRetRestoresTheStackPointer
  intro s t u nnn hcall hlt hsp hslots
  rw [exec_call_of_lt nnn hlt] at hcall
  cases hcall
  have hu : u.sp.val = s.sp.val + 1 := congrArg Fin.val hsp
  have hused (k : Nat) (hk : k < 16) (hle : k ≤ s.sp.val) : u.stack[k] = (s.stack.set s.sp.val s.pc)[k] :=
    hslots k hk (Nat.lt_succ_of_le hle)
  refine ⟨_, exec_ret_of_pos (by omega), ?_, ?_, fun k hk hbelow => ?_⟩
  · exact Fin.ext (Nat.sub_eq_of_eq_add hu)
  · have htop : u.stack[u.sp.val - 1]'(by omega) = s.pc := by
      rw [hused _ _ (by omega)]
      simp [hu]
    rw [State.jumpTo_pc, htop]
  · exact (hused k hk hbelow.le).trans (Vector.getElem_set_ne _ _ hbelow.ne')

/-- Settles O37: the excluded addresses are those of the words of CLS and RET. -/
theorem sysIsALoggedNoOp : Obligations.SysIsALoggedNoOp := by
  unfold Obligations.SysIsALoggedNoOp
  intro s nnn hE0 hEE
  have hwf : (Instr.sys nnn).wf = true := Bool.and_eq_true_iff.2 ⟨bne_iff_ne.2 hE0, bne_iff_ne.2 hEE⟩
  exact ⟨encodedAs_of_packNNN hwf rfl (Nat.zero_add _), rfl⟩

/-- The sum of a 12-bit address and a byte stays below 2^16, so BNNN's target does not wrap (R128). -/
theorem State.jpV0_target_toNat (s : State) (nnn : Addr) :
    (zextAddr nnn + s.zextV 0).toNat = nnn.toNat + (s.getV 0).toNat := by
  rw [BitVec.toNat_add, zextAddr_toNat, State.zextV_toNat]
  omega

/-- Settles O38: both targets are the numbers they are written as. -/
theorem jumpsSetOnlyPc : Obligations.JumpsSetOnlyPc := by
  unfold Obligations.JumpsSetOnlyPc
  intro s nnn
  exact ⟨encodedAs_of_packNNN rfl rfl rfl, encodedAs_of_packNNN rfl rfl rfl, ⟨_, zextAddr_toNat nnn, rfl⟩,
    ⟨_, s.jpV0_target_toNat nnn, rfl⟩⟩

/-- Settles O39: the push takes the slot at SP, or there is none and CALL faults with its own word. -/
theorem callPushesItsOwnAddress : Obligations.CallPushesItsOwnAddress := by
  unfold Obligations.CallPushesItsOwnAddress
  intro s nnn
  refine ⟨encodedAs_of_packNNN rfl rfl rfl, fun hlt => ?_, fun hfull => ?_⟩
  · refine ⟨_, exec_call_of_lt nnn hlt, zextAddr_toNat nnn, rfl, fun k hk => ?_, fun _ => rfl, rfl⟩
    rw [State.jumpTo_stack, Vector.getElem_set]
    simp only [eq_comm]
  · exact ⟨_, packNNN_toNat 0x2 nnn, exec_call_of_full nnn hfull⟩

/-- Settles O40: the popped address with each of the two offsets added, or the log event on an empty stack. -/
theorem retResumesAtPoppedAddress : Obligations.RetResumesAtPoppedAddress := by
  unfold Obligations.RetResumesAtPoppedAddress
  intro s
  refine ⟨encodedAs_of_wf rfl rfl, exec_ret_of_empty, fun hpos => ?_⟩
  refine ⟨_, exec_ret_of_pos hpos, rfl, fun hzero => ?_, fun htwo => ?_, fun _ => rfl, rfl⟩
  · rw [State.jumpTo_pc, hzero]
    exact BitVec.add_zero _
  · rw [State.jumpTo_pc, htwo]
    rfl

/-- A skip's own 2 and step 7's 2 make 4, and pc is all that changes (R99, R124). -/
theorem State.skipIf_advance_eq (s : State) (c : Bool) :
    (s.skipIf c).advance = { s with pc := if c then s.pc + 4 else s.pc + 2 } := by
  cases c with
  | true => exact congrArg (fun p : Word => { s with pc := p }) (BitVec.add_assoc s.pc 2 2)
  | false => rfl

/-- Settles O42: each skip is skipIf of its comparison, then the advance. -/
theorem skipsOnComparisonsMovePcOnly : Obligations.SkipsOnComparisonsMovePcOnly := by
  unfold Obligations.SkipsOnComparisonsMovePcOnly
  intro s x y nn
  refine ⟨encodedAs_of_packXNN rfl rfl rfl, encodedAs_of_packXNN rfl rfl rfl, encodedAs_of_packXYN rfl rfl rfl,
    encodedAs_of_packXYN rfl rfl rfl, ?seImm, ?sneImm, ?seReg, ?sneReg⟩
  case seImm => simp only [exec, execSeImm, State.skipIf_advance_eq, beq_iff_eq]
  case sneImm => simp only [exec, execSneImm, State.skipIf_advance_eq, bne_iff_ne]
  case seReg => simp only [exec, execSeReg, State.skipIf_advance_eq, beq_iff_eq]
  case sneReg => simp only [exec, execSneReg, State.skipIf_advance_eq, bne_iff_ne]

end Sys2Proof.Machine

/-! Registers and ALU (R140 to R153). -/

namespace Sys2Proof.Machine

/-! Two register writes (R141). -/

/-- Of two writes to one register the second is left. -/
theorem State.setV_setV_self (s : State) (x : Reg) (a b : Byte) : (s.setV x a).setV x b = s.setV x b :=
  congrArg (fun v => { s with v := v }) (Vector.set_set ..)

/-- Writes to two registers commute. -/
theorem State.setV_comm (s : State) {x y : Reg} (a b : Byte) (h : x ≠ y) :
    (s.setV x a).setV y b = (s.setV y b).setV x a :=
  congrArg (fun v => { s with v := v }) (Vector.set_comm _ _ (Fin.val_ne_of_ne h))

/-- Settles O43: for x = F the second of the two writes is the one the parameter picks; for another x they commute. -/
theorem resultAndFlagAreTwoOrderedWrites : Obligations.ResultAndFlagAreTwoOrderedWrites := by
  unfold Obligations.ResultAndFlagAreTwoOrderedWrites
  intro s x r f
  have hcomm : x ≠ vf → (s.setV x r).setV vf f = (s.setV vf f).setV x r := s.setV_comm r f
  by_cases hx : x = vf
  · subst hx
    exact ⟨fun hflag => by rw [State.writeResultAndFlag, if_pos rfl, hflag, State.setV_setV_self],
      fun hresult => by rw [State.writeResultAndFlag, if_pos rfl, hresult, State.setV_setV_self], hcomm⟩
  · have hwrite : s.writeResultAndFlag x r f = (s.setV x r).setV vf f := if_neg hx
    exact ⟨fun _ => hwrite, fun _ => hwrite.trans (hcomm hx), hcomm⟩

/-! What an instruction that ends in such a write sets and leaves. -/

section Writers

variable {i : Instr} {s : State} {x : Reg}

theorem setsOnlyVx_of_exec {b : Byte} (h : exec i s = .next (s.setV x b).advance) : SetsOnlyVx i s x b :=
  ⟨_, h, s.getV_setV_self x b, fun _ hr => s.getV_setV_of_ne b hr, rfl, fun _ => rfl, rfl⟩

theorem setsResultAndFlag_of_exec {r f : Byte} (h : exec i s = .next (s.writeResultAndFlag x r f).advance) :
    SetsResultAndFlag i s x r f := by
  have hget (q : Reg) := s.getV_writeResultAndFlag x q r f
  rw [s.writeResultAndFlag_eq x r f] at h
  refine ⟨_, h, fun hx => ⟨(hget x).trans ?_, (hget vf).trans ?_⟩, fun hx hflag => (hget vf).trans ?_,
    fun hx hresult => (hget vf).trans ?_, fun q hqx hqf => (hget q).trans ?_, rfl, fun _ => rfl, rfl⟩
  · rw [if_neg hx, if_pos rfl]
  · rw [if_pos rfl, if_neg fun hc => hx hc.1]
  · simp [hflag]
  · rw [if_pos rfl, if_pos ⟨hx, hresult⟩]
  · rw [if_neg hqf, if_neg hqx]

end Writers

/-! Results and flags as numbers (R42, R140). -/

theorem sum8_toNat (a b : Byte) : (sum8 a b).toNat = (a.toNat + b.toNat) % 256 :=
  BitVec.toNat_ofNat _ 8

theorem diff8_toNat (a b : Byte) : ((diff8 a b).toNat : Int) = (a.toNat - b.toNat : Int) % 256 := by
  have hb : b.toNat < 256 := b.isLt
  rw [diff8, BitVec.toNat_ofNat]
  omega

theorem shiftRight1_toNat (v : Byte) : (shiftRight1 v).toNat = v.toNat / 2 := by
  have hv : v.toNat < 256 := v.isLt
  rw [shiftRight1, BitVec.toNat_ofNat]
  omega

theorem shiftLeft1_toNat (v : Byte) : (shiftLeft1 v).toNat = v.toNat * 2 % 256 :=
  BitVec.toNat_ofNat _ 8

theorem flagByte_toNat (b : Bool) : (flagByte b).toNat = b.toNat := by
  cases b <;> rfl

/-- The flag of a comparison (R148, R149, R151). -/
theorem flagByte_decide_toNat (p : Prop) [Decidable p] : (flagByte (decide p)).toNat = if p then 1 else 0 := by
  by_cases hp : p <;> simp [hp, flagByte]

/-- The flag of a bit (R150, R152). -/
theorem flagByte_getLsbD_toNat (v : Byte) (k : Nat) : (flagByte (v.getLsbD k)).toNat = v.toNat / 2 ^ k % 2 := by
  rw [flagByte_toNat]
  exact Nat.toNat_testBit v.toNat k

theorem flagByte_bit0_toNat (v : Byte) : (flagByte (bit0 v)).toNat = v.toNat % 2 := by
  rw [bit0, flagByte_getLsbD_toNat, Nat.pow_zero, Nat.div_one]

theorem flagByte_bit7_toNat (v : Byte) : (flagByte (bit7 v)).toNat = v.toNat / 128 := by
  have hv : v.toNat < 256 := v.isLt
  rw [bit7, flagByte_getLsbD_toNat]
  omega

/-- The words 8XYh: the sub-opcode h is in the lowest nibble (R74). -/
theorem encodedAs_group8 {i : Instr} {x y : Reg} (h : Height) (hwf : i.wf = true) (hi : encode i = packXYN 0x8 x y h) :
    EncodedAs (0x8000 + h.val + 256 * x.val + 16 * y.val) i :=
  encodedAs_of_packXYN hwf hi (by simp only [BitVec.reduceToNat]; omega)

/-- Settles O47: both shifts are a result and flag write, and the flag is an end bit of V[x]. -/
theorem shiftsSetTheBitShiftedOut : Obligations.ShiftsSetTheBitShiftedOut := by
  unfold Obligations.ShiftsSetTheBitShiftedOut
  intro s x y
  refine ⟨encodedAs_group8 0x6 rfl rfl, encodedAs_group8 0xE rfl rfl, ?shr, ?shl⟩
  case shr => exact ⟨_, _, shiftRight1_toNat _, flagByte_bit0_toNat _, setsResultAndFlag_of_exec rfl⟩
  case shl => exact ⟨_, _, shiftLeft1_toNat _, flagByte_bit7_toNat _, setsResultAndFlag_of_exec rfl⟩

/-- Settles O44: each ends in one register write. -/
theorem registerLoadsAndAddImmediateSetOnlyVx : Obligations.RegisterLoadsAndAddImmediateSetOnlyVx := by
  unfold Obligations.RegisterLoadsAndAddImmediateSetOnlyVx
  intro s x y nn
  exact ⟨encodedAs_of_packXNN rfl rfl rfl, encodedAs_of_packXNN rfl rfl rfl, encodedAs_of_packXYN rfl rfl rfl,
    encodedAs_of_packXNN rfl rfl rfl, setsOnlyVx_of_exec rfl, ⟨_, sum8_toNat _ nn, setsOnlyVx_of_exec rfl⟩,
    setsOnlyVx_of_exec rfl, setsOnlyVx_of_exec rfl⟩

/-- Settles O45: the result's bits are those of the operator, in one register write. -/
theorem logicalOperationsActBitwise : Obligations.LogicalOperationsActBitwise := by
  unfold Obligations.LogicalOperationsActBitwise
  intro s x y
  refine ⟨encodedAs_group8 0x1 rfl rfl, encodedAs_group8 0x2 rfl rfl, encodedAs_group8 0x3 rfl rfl, ?or, ?and, ?xor⟩
  case or => exact ⟨_, fun _ _ => BitVec.getLsbD_or, setsOnlyVx_of_exec rfl⟩
  case and => exact ⟨_, fun _ _ => BitVec.getLsbD_and, setsOnlyVx_of_exec rfl⟩
  case xor => exact ⟨_, fun _ _ => BitVec.getLsbD_xor, setsOnlyVx_of_exec rfl⟩

/-- Settles O46: each is a result and flag write, and the flag is a comparison of the operands. -/
theorem addAndSubtractSetCarryOrNoBorrow : Obligations.AddAndSubtractSetCarryOrNoBorrow := by
  unfold Obligations.AddAndSubtractSetCarryOrNoBorrow
  intro s x y
  refine ⟨encodedAs_group8 0x4 rfl rfl, encodedAs_group8 0x5 rfl rfl, encodedAs_group8 0x7 rfl rfl, ?add, ?sub,
    ?subn⟩
  case add => exact ⟨_, _, sum8_toNat _ _, flagByte_decide_toNat _, setsResultAndFlag_of_exec rfl⟩
  case sub => exact ⟨_, _, diff8_toNat _ _, flagByte_decide_toNat _, setsResultAndFlag_of_exec rfl⟩
  case subn => exact ⟨_, _, diff8_toNat _ _, flagByte_decide_toNat _, setsResultAndFlag_of_exec rfl⟩

end Sys2Proof.Machine

/-! Index register and memory (R56, R170 to R176). -/

namespace Sys2Proof.Machine

/-! The words FXnn: the sub-opcode nn is the low byte (R74). -/

section GroupF

variable {i : Instr} {x : Reg} (nn : Byte)

theorem encode_groupF_toNat (hi : encode i = packXNN 0xF x nn) :
    (encode i).toNat = 0xF000 + nn.toNat + 256 * x.val := by
  rw [hi, packXNN_toNat]
  simp only [BitVec.reduceToNat]
  omega

theorem encodedAs_groupF (hwf : i.wf = true) (hi : encode i = packXNN 0xF x nn) :
    EncodedAs (0xF000 + nn.toNat + 256 * x.val) i :=
  encodedAs_of_wf hwf (encode_groupF_toNat nn hi)

end GroupF

/-! The block transfers, one equation per outcome of the range check (R56, R173 to R175). -/

/-- The check of k + 1 bytes is that the last of them lies inside memory (R56). -/
theorem State.dataInRange_succ (s : State) (k : Nat) : s.dataInRange (k + 1) ↔ s.i.toNat + k ≤ 4095 :=
  Iff.rfl

section Transfers

variable {s : State} {x : Reg}

theorem exec_ldB_of_inRange (h : s.i.toNat + 2 ≤ 4095) :
    exec (.ldB x) s = .next ({ s with mem := s.mem.writeBytes s.i.toNat (bcdDigits (s.getV x)) } : State).advance :=
  if_pos ((s.dataInRange_succ 2).2 h)

theorem exec_ldB_of_outOfRange (h : s.i.toNat + 2 > 4095) :
    Faults (.ldB x) s (.memOutOfRange s.pc (encode (.ldB x)) s.i) :=
  if_neg fun hin => h.not_ge ((s.dataInRange_succ 2).1 hin)

theorem exec_store_of_inRange (h : s.i.toNat + x.val ≤ 4095) :
    exec (.store x) s = .next ({ s with mem := s.mem.writeBytes s.i.toNat (s.regsUpTo x) } : State).advance :=
  if_pos ((s.dataInRange_succ x.val).2 h)

theorem exec_store_of_outOfRange (h : s.i.toNat + x.val > 4095) :
    Faults (.store x) s (.memOutOfRange s.pc (encode (.store x)) s.i) :=
  if_neg fun hin => h.not_ge ((s.dataInRange_succ x.val).1 hin)

theorem exec_load_of_inRange (h : s.i.toNat + x.val ≤ 4095) :
    exec (.load x) s =
      .next ({ s with v := writeRegs s.v 0 (s.mem.readBytes s.i.toNat (x.val + 1)) } : State).advance :=
  if_pos ((s.dataInRange_succ x.val).2 h)

theorem exec_load_of_outOfRange (h : s.i.toNat + x.val > 4095) :
    Faults (.load x) s (.memOutOfRange s.pc (encode (.load x)) s.i) :=
  if_neg fun hin => h.not_ge ((s.dataInRange_succ x.val).1 hin)

end Transfers

/-! What the transfers move. -/

/-- The three digits as numbers, hundreds first (R173). -/
theorem bcdDigits_map_toNat (v : Byte) :
    (bcdDigits v).map BitVec.toNat = [v.toNat / 100, v.toNat / 10 % 10, v.toNat % 10] := by
  have hv : v.toNat < 256 := v.isLt
  simp only [bcdDigits, List.map_cons, List.map_nil, BitVec.toNat_ofNat, List.cons.injEq, and_true]
  omega

/-- The k-th address of the three holds the k-th digit (R173). -/
theorem read_writeBytes_bcdDigits {m : Memory} (hm : m.wf) {a : Nat} (ha : a + 2 ≤ 4095) (v : Byte) (k : Fin 3) :
    ((m.writeBytes a (bcdDigits v)).read (a + k.val)).toNat =
      [v.toNat / 100, v.toNat / 10 % 10, v.toNat % 10][k] := by
  have hlen : (bcdDigits v).length = 3 := rfl
  rw [Memory.read_writeBytes_inside hm a _ (by omega) k.val (by omega)]
  simp only [← bcdDigits_map_toNat, Fin.getElem_fin, List.getElem_map]

/-- Address a + r holds V[r], up to V[x] (R174). -/
theorem State.read_writeBytes_regsUpTo (s : State) {m : Memory} (hm : m.wf) {a : Nat} {x r : Reg}
    (ha : a + x.val ≤ 4095) (hr : r ≤ x) : (m.writeBytes a (s.regsUpTo x)).read (a + r.val) = s.getV r := by
  have hlen := s.length_regsUpTo x
  have hle : r.val ≤ x.val := hr
  rw [Memory.read_writeBytes_inside hm a _ (by omega) r.val (by omega), s.getElem_regsUpTo x r hr]

/-- V[r] takes the byte at a + r, up to V[x]; the registers above keep their values (R175). -/
theorem getElem_writeRegs_readBytes (v : Vector Byte 16) (m : Memory) (a : Nat) (x r : Reg) :
    (writeRegs v 0 (m.readBytes a (x.val + 1)))[r.val] = if r ≤ x then m.read (a + r.val) else v[r.val] := by
  have hlen := m.length_readBytes a (x.val + 1)
  by_cases hr : r ≤ x
  · have hle : r.val ≤ x.val := hr
    rw [getElem_writeRegs, dif_pos (by omega), Memory.getElem_readBytes, Nat.sub_zero, if_pos hr]
  · have hlt : x < r := not_le.1 hr
    have hle : (m.readBytes a (x.val + 1)).length ≤ r.val := hlen.trans_le hlt
    rw [getElem_writeRegs_of_length_le _ _ _ hle, if_neg hr]

/-- Settles O49: the digits are the three bytes written from I upwards, or the range check fails. -/
theorem bcdStoresThreeDecimalDigits : Obligations.BcdStoresThreeDecimalDigits := by
  unfold Obligations.BcdStoresThreeDecimalDigits
  intro s x hm
  refine ⟨encodedAs_groupF 0x33 rfl rfl, fun hin => ?_, fun hout => ?_⟩
  · have hdigit := read_writeBytes_bcdDigits hm hin (s.getV x)
    exact ⟨_, exec_ldB_of_inRange hin, hdigit 0, hdigit 1, hdigit 2,
      fun a ha => Memory.read_writeBytes_of_outside _ _ _ _ ha, rfl⟩
  · exact ⟨_, encode_groupF_toNat 0x33 rfl, exec_ldB_of_outOfRange hout⟩

/-- Settles O50: V0 to V[x] are the bytes written from I upwards, or the range check fails. -/
theorem storeWritesRegistersFromIndex : Obligations.StoreWritesRegistersFromIndex := by
  unfold Obligations.StoreWritesRegistersFromIndex
  intro s x hm
  refine ⟨encodedAs_groupF 0x55 rfl rfl, fun hin => ?_, fun hout => ?_⟩
  · refine ⟨_, exec_store_of_inRange hin, fun r hr => s.read_writeBytes_regsUpTo hm hin hr, fun a ha => ?_, rfl⟩
    exact Memory.read_writeBytes_of_outside _ _ _ _ (by rw [State.length_regsUpTo]; omega)
  · exact ⟨_, encode_groupF_toNat 0x55 rfl, exec_store_of_outOfRange hout⟩

/-- Settles O51: V0 to V[x] take the bytes read from I upwards, or the range check fails. -/
theorem loadReadsRegistersFromIndex : Obligations.LoadReadsRegistersFromIndex := by
  unfold Obligations.LoadReadsRegistersFromIndex
  intro s x
  refine ⟨encodedAs_groupF 0x65 rfl rfl, fun hin => ?_, fun hout => ?_⟩
  · exact ⟨_, exec_load_of_inRange hin, getElem_writeRegs_readBytes s.v s.mem s.i.toNat x, fun _ => rfl, rfl⟩
  · exact ⟨_, encode_groupF_toNat 0x65 rfl, exec_load_of_outOfRange hout⟩

/-- Settles O52: the load reads the bytes the store wrote, at the same I, which the store leaves (D9). -/
theorem storeThenLoadRestoresRegisters : Obligations.StoreThenLoadRestoresRegisters := by
  unfold Obligations.StoreThenLoadRestoresRegisters
  intro s u x hm hin
  obtain ⟨-, hstores, -⟩ := storeWritesRegistersFromIndex s x hm
  obtain ⟨-, hloads, -⟩ := loadReadsRegistersFromIndex u x
  obtain ⟨t, hstore, hwritten, -, ht⟩ := hstores hin
  refine ⟨t, hstore, fun hi hmem => ?_⟩
  have hsame : u.i = s.i := by rw [hi, ht]
  obtain ⟨z, hload, hread, -⟩ := hloads (by rwa [hsame])
  exact ⟨z, hload, fun r hr => by rw [hread, if_pos hr, hsame, hmem, hwritten r hr]⟩

/-- ADD I wraps at 16 bits (R171). -/
theorem State.addI_toNat (s : State) (x : Reg) :
    (s.i + s.zextV x).toNat = (s.i.toNat + (s.getV x).toNat) % 65536 := by
  rw [BitVec.toNat_add, State.zextV_toNat]

/-- Five times a byte stays below 2^16, so FX29's address does not wrap (R172). -/
theorem State.glyphAddr_toNat (s : State) (x : Reg) : (s.glyphAddr x).toNat = (s.getV x).toNat * 5 := by
  have hv : (s.getV x).toNat < 256 := (s.getV x).isLt
  rw [State.glyphAddr, BitVec.toNat_mul, State.zextV_toNat]
  simp only [BitVec.reduceToNat]
  omega

/-- Settles O48: each writes I once, with the number its rule gives, and advances. -/
theorem indexRegisterOperations : Obligations.IndexRegisterOperations := by
  unfold Obligations.IndexRegisterOperations
  intro s x nnn
  exact ⟨encodedAs_of_packNNN rfl rfl rfl, encodedAs_groupF 0x1E rfl rfl, encodedAs_groupF 0x29 rfl rfl,
    ⟨_, zextAddr_toNat nnn, rfl⟩, ⟨_, s.addI_toNat x, rfl⟩, ⟨_, s.glyphAddr_toNat x, rfl⟩⟩

end Sys2Proof.Machine

/-! Display (R190 to R193). -/

namespace Sys2Proof.Machine

/-- Settles O53: CLS writes the blank framebuffer and advances. -/
theorem clsClearsEveryPixel : Obligations.ClsClearsEveryPixel := by
  unfold Obligations.ClsClearsEveryPixel
  intro s
  exact ⟨encodedAs_of_wf rfl rfl, _, rfl, Framebuffer.pixel_blank, fun _ => rfl, rfl⟩

section Draw

variable {s : State} {x y : Reg} {n : Height} {row col : Nat}

/-! What DRW leaves on the framebuffer, told by the pixels the sprite covers (R191). -/

theorem State.pixel_drawn_of_covers (hr : row < 32) (hc : col < 64) (h : s.spriteCovers x y n row col) :
    (s.drawn x y n).fb.pixel row col = !s.fb.pixel row col := by
  rw [State.drawn, pixel_drawSprite _ _ _ _ _ _ hr hc, (s.covered_iff_spriteCovers x y n row col).2 h, Bool.xor_true]

theorem State.pixel_drawn_of_not_covers (hr : row < 32) (hc : col < 64) (h : ¬ s.spriteCovers x y n row col) :
    (s.drawn x y n).fb.pixel row col = s.fb.pixel row col := by
  rw [← s.covered_iff_spriteCovers, Bool.not_eq_true] at h
  rw [State.drawn, pixel_drawSprite _ _ _ _ _ _ hr hc, h, Bool.xor_false]

/-- Some pixel inside the framebuffer under a 1 bit of the sprite is set (R191). -/
def State.spriteCollides (s : State) (x y : Reg) (n : Height) : Prop :=
  ∃ row col, row < 32 ∧ col < 64 ∧ s.spriteCovers x y n row col ∧ s.fb.pixel row col = true

theorem State.hit_drawn_iff : (s.drawn x y n).hit = true ↔ s.spriteCollides x y n := by
  simp only [State.drawn, hit_drawSprite, State.covered_iff_spriteCovers, Bool.false_eq_true, false_or,
    State.spriteCollides]

theorem State.flagByte_hit_of_collides (h : s.spriteCollides x y n) : flagByte (s.drawn x y n).hit = 1 := by
  rw [State.hit_drawn_iff.2 h]
  rfl

theorem State.flagByte_hit_of_not_collides (h : ¬ s.spriteCollides x y n) : flagByte (s.drawn x y n).hit = 0 := by
  rw [Bool.eq_false_iff.2 fun hhit => h (State.hit_drawn_iff.1 hhit)]
  rfl

/-- What a sprite covers depends on I, the start operands, memory and the start row's modulus alone (R192, R193). -/
theorem State.spriteCovers_congr {t : State} (hi : t.i = s.i) (hx : t.getV x = s.getV x) (hy : t.getV y = s.getV y)
    (hmem : t.mem = s.mem) (hparams : t.params = s.params) :
    t.spriteCovers x y n row col ↔ s.spriteCovers x y n row col := by
  rw [State.spriteCovers, State.spriteCovers, hi, hx, hy, hmem, hparams]

/-! DRW, one equation per outcome of the range check (R56, R191). -/

theorem exec_drw_of_inRange (h : n.val = 0 ∨ s.i.toNat + n.val - 1 ≤ 4095) :
    exec (.drw x y n) s =
      .next (({ s with fb := (s.drawn x y n).fb } : State).setV vf (flagByte (s.drawn x y n).hit)).advance :=
  if_neg fun ⟨hpos, hout⟩ => h.elim (Nat.one_le_iff_ne_zero.1 hpos) hout

theorem exec_drw_of_outOfRange (hpos : 1 ≤ n.val) (h : s.i.toNat + n.val - 1 > 4095) :
    Faults (.drw x y n) s (.memOutOfRange s.pc (encode (.drw x y n)) s.i) :=
  if_pos ⟨hpos, h.not_ge⟩

theorem encode_drw_toNat : (encode (.drw x y n)).toNat = 0xD000 + 256 * x.val + 16 * y.val + n.val := by
  rw [encode, packXYN_toNat, Nat.mul_comm x.val, Nat.mul_comm y.val]
  rfl

end Draw

/-- Settles O54: the draw's pixels and flag are those of the covered pixels, or the range check fails. -/
theorem drawXorsTheSpriteAndFlagsCollision : Obligations.DrawXorsTheSpriteAndFlagsCollision := by
  unfold Obligations.DrawXorsTheSpriteAndFlagsCollision
  intro s x y n
  refine ⟨encodedAs_of_wf rfl encode_drw_toNat, fun hin => ?_, fun hpos hout => ?_⟩
  · refine ⟨_, exec_drw_of_inRange hin, fun _ _ => State.pixel_drawn_of_covers,
      fun _ _ => State.pixel_drawn_of_not_covers, fun hcoll => ?_, fun hcoll => ?_, fun r hr => ?_,
      fun _ => rfl, rfl⟩
    · rw [State.getV_advance, State.getV_setV_self, State.flagByte_hit_of_collides hcoll]
    · rw [State.getV_advance, State.getV_setV_self, State.flagByte_hit_of_not_collides hcoll]
    · exact State.getV_setV_of_ne _ _ hr
  · exact ⟨_, encode_drw_toNat, exec_drw_of_outOfRange hpos hout⟩

/-- Settles O55: the second draw covers the same pixels, which it inverts back, and a covered pixel is set before it
exactly when it was not before the first. -/
theorem drawTwiceRestoresTheFramebuffer : Obligations.DrawTwiceRestoresTheFramebuffer := by
  unfold Obligations.DrawTwiceRestoresTheFramebuffer
  intro s x y n hx hy hin
  obtain ⟨-, hdraws, -⟩ := drawXorsTheSpriteAndFlagsCollision s x y n
  obtain ⟨t, ht, htInv, htKeep, -, -, htV, -, hteq⟩ := hdraws hin
  have hi : t.i = s.i := by rw [hteq]
  obtain ⟨-, hdraws, -⟩ := drawXorsTheSpriteAndFlagsCollision t x y n
  obtain ⟨u, hu, huInv, huKeep, huHit, huMiss, -⟩ := hdraws (by rwa [hi])
  have hcov (row col : Nat) : t.spriteCovers x y n row col ↔ s.spriteCovers x y n row col :=
    State.spriteCovers_congr hi (htV x hx) (htV y hy) (by rw [hteq]) (by rw [hteq])
  have hcoll : t.spriteCollides x y n ↔
      ∃ row col, row < 32 ∧ col < 64 ∧ s.spriteCovers x y n row col ∧ s.fb.pixel row col = false := by
    refine exists₂_congr fun row col => and_congr_right fun hr => and_congr_right fun hc => ?_
    rw [hcov]
    exact and_congr_right fun h => by rw [htInv row col hr hc h, Bool.not_eq_true']
  refine ⟨t, u, ht, hu, Framebuffer.ext_pixel fun row col hr hc => ?_, ?_⟩
  · by_cases h : s.spriteCovers x y n row col
    · rw [huInv row col hr hc ((hcov row col).2 h), htInv row col hr hc h, Bool.not_not]
    · rw [huKeep row col hr hc (mt (hcov row col).1 h), htKeep row col hr hc h]
  · rw [← hcoll]
    refine ⟨fun hvf => by_contra fun hnone => ?_, huHit⟩
    have hzero : u.getV vf = 0 := huMiss hnone
    rw [hvf] at hzero
    exact absurd hzero (by decide)

end Sys2Proof.Machine

/-! Keypad and timers (R201 to R207). -/

namespace Sys2Proof.Machine

/-! The words of the layout XNN: the sub-opcode nn is the low byte (R74). -/

theorem encode_packXNN_toNat {i : Instr} {x : Reg} (op : BitVec 4) (nn : Byte) (hi : encode i = packXNN op x nn) :
    (encode i).toNat = op.toNat * 4096 + nn.toNat + 256 * x.val := by
  rw [hi, packXNN_toNat]
  omega

/-! SKP and SKNP, one equation per outcome of the key line (R202, R203). -/

section KeySkips

variable {s : State} {x : Reg}

theorem State.keyLine_of_toNat_eq {k : Fin 16} (h : (s.getV x).toNat = k.val) :
    s.keyLine x = some s.input.keypad[k.val] := by
  have hlt : (s.getV x).toNat < 16 := h.trans_lt k.isLt
  rw [State.keyLine, dif_pos hlt]
  simp only [h]

theorem State.keyLine_of_gt (h : (s.getV x).toNat > 15) : s.keyLine x = none :=
  dif_neg (by omega)

theorem exec_skp_of_keyLine {pressed : Bool} (h : s.keyLine x = some pressed) :
    exec (.skp x) s = .next { s with pc := if pressed = true then s.pc + 4 else s.pc + 2 } := by
  simp only [exec, execSkp, h, State.skipIf_advance_eq]

theorem exec_sknp_of_keyLine {pressed : Bool} (h : s.keyLine x = some pressed) :
    exec (.sknp x) s = .next { s with pc := if pressed = false then s.pc + 4 else s.pc + 2 } := by
  simp only [exec, execSknp, h, State.skipIf_advance_eq, Bool.not_eq_true']

theorem exec_skp_of_noKeyLine (h : s.keyLine x = none) :
    Faults (.skp x) s (.keyIndexOutOfRange s.pc (encode (.skp x)) (s.getV x)) := by
  simp only [Faults, exec, execSkp, h]
  rfl

theorem exec_sknp_of_noKeyLine (h : s.keyLine x = none) :
    Faults (.sknp x) s (.keyIndexOutOfRange s.pc (encode (.sknp x)) (s.getV x)) := by
  simp only [Faults, exec, execSknp, h]
  rfl

end KeySkips

/-- Settles O56: V[x] up to 15 selects a line of the call's keypad, and above 15 there is none. -/
theorem keySkipsTestTheSelectedLine : Obligations.KeySkipsTestTheSelectedLine := by
  unfold Obligations.KeySkipsTestTheSelectedLine
  intro s x
  have hskp : (encode (.skp x)).toNat = 0xE09E + 256 * x.val := encode_packXNN_toNat 0xE 0x9E rfl
  have hsknp : (encode (.sknp x)).toNat = 0xE0A1 + 256 * x.val := encode_packXNN_toNat 0xE 0xA1 rfl
  refine ⟨encodedAs_of_wf rfl hskp, encodedAs_of_wf rfl hsknp, fun k hk => ?_, fun hgt => ?_⟩
  · have hline := State.keyLine_of_toNat_eq hk
    exact ⟨exec_skp_of_keyLine hline, exec_sknp_of_keyLine hline⟩
  · have hline := State.keyLine_of_gt hgt
    exact ⟨_, _, hskp, hsknp, exec_skp_of_noKeyLine hline, exec_sknp_of_noKeyLine hline⟩

/-- Settles O57: FX0A writes the latch and its destination and advances. -/
theorem waitForKeySetsTheLatch : Obligations.WaitForKeySetsTheLatch := by
  unfold Obligations.WaitForKeySetsTheLatch
  exact fun s x => ⟨encodedAs_groupF 0x0A rfl rfl, rfl⟩

/-- Settles O60: FX07 is a write of V[x], FX15 and FX18 of a timer. -/
theorem timerTransfersAreRegisterMoves : Obligations.TimerTransfersAreRegisterMoves := by
  unfold Obligations.TimerTransfersAreRegisterMoves
  exact fun s x => ⟨encodedAs_groupF 0x07 rfl rfl, encodedAs_groupF 0x15 rfl rfl, encodedAs_groupF 0x18 rfl rfl,
    setsOnlyVx_of_exec rfl, rfl, rfl⟩

/-! What a call does from two states that differ in the timers (R201). -/

/-- The same state with other timers. -/
def State.withTimers (s : State) (d e : Byte) : State := { s with dt := d, st := e }

theorem State.writeResultAndFlag_withTimers (s : State) (d e : Byte) (x : Reg) (r f : Byte) :
    (s.withTimers d e).writeResultAndFlag x r f = (s.writeResultAndFlag x r f).withTimers d e := by
  unfold State.writeResultAndFlag
  split <;> rfl

theorem State.captureKey_withTimers (s : State) (d e : Byte) :
    (s.withTimers d e).captureKey = s.captureKey.withTimers d e := by
  have hinput : (s.withTimers d e).input = s.input := rfl
  unfold State.captureKey
  rw [hinput]
  cases lowestPressed s.input.keypad <;> rfl

theorem State.pauseAfter_withTimers (s : State) (d e : Byte) :
    (s.withTimers d e).pauseAfter = s.pauseAfter.withTimers d e := by
  rw [State.pauseAfter_eq, State.pauseAfter_eq]
  rfl

/-- An instruction that reads and writes no timer carries both along. -/
theorem exec_withTimers {i : Instr} (s : State) (d e : Byte) (hread : ∀ x, i ≠ .ldFromDt x)
    (hdt : ∀ x, i ≠ .ldDt x) (hst : ∀ x, i ≠ .ldSt x) :
    exec i (s.withTimers d e) = mapNext (fun u => u.withTimers d e) (exec i s) := by
  cases i with
  | ldFromDt x => exact absurd rfl (hread x)
  | ldDt x => exact absurd rfl (hdt x)
  | ldSt x => exact absurd rfl (hst x)
  | call nnn =>
    by_cases h : s.sp.val < 16
    · rw [exec_call_of_lt nnn h, exec_call_of_lt (s := s.withTimers d e) nnn h]
      rfl
    · have hfull : s.sp.val = 16 := by omega
      rw [exec_call_of_full nnn hfull, exec_call_of_full (s := s.withTimers d e) nnn hfull]
      rfl
  | ret =>
    obtain h | h := Nat.eq_zero_or_pos s.sp.val
    · rw [exec_ret_of_empty h, exec_ret_of_empty (s := s.withTimers d e) h]
      rfl
    · rw [exec_ret_of_pos h, exec_ret_of_pos (s := s.withTimers d e) h]
      rfl
  | skp x | sknp x =>
    have hline : (s.withTimers d e).keyLine x = s.keyLine x := rfl
    simp only [exec, execSkp, execSknp, hline, State.skipIf_advance_eq]
    cases s.keyLine x <;> rfl
  | seImm x nn | sneImm x nn | seReg x y | sneReg x y =>
    simp only [exec, execSeImm, execSneImm, execSeReg, execSneReg, State.skipIf_advance_eq]
    rfl
  | addReg x y | sub x y | subn x y | shr x y | shl x y =>
    exact congrArg (fun t : State => Host.Outcome.next t.advance) (s.writeResultAndFlag_withTimers d e x _ _)
  | drw x y n => simp only [exec, execDrw, apply_ite (mapNext _)]; rfl
  | ldB x => simp only [exec, execLdB, apply_ite (mapNext _)]; rfl
  | store x => simp only [exec, execStore, apply_ite (mapNext _)]; rfl
  | load x => simp only [exec, execLoad, apply_ite (mapNext _)]; rfl
  | _ => rfl

/-- Two states that agree on everything but the timers, and on DT too where sameDt holds. -/
def timersDiffer (sameDt : Prop) (s t : State) : Prop := ∃ d e, t = s.withTimers d e ∧ (sameDt → d = s.dt)

section TimersDiffer

variable {sameDt : Prop} {s t : State}

theorem timersDiffer_true_iff : timersDiffer True s t ↔ t = { s with st := t.st } := by
  constructor
  · rintro ⟨d, e, rfl, hd⟩
    rw [hd trivial]
    rfl
  · exact fun h => ⟨s.dt, t.st, h, fun _ => rfl⟩

theorem timersDiffer_false_iff : timersDiffer False s t ↔ t = { s with dt := t.dt, st := t.st } := by
  constructor
  · rintro ⟨d, e, rfl, -⟩
    rfl
  · exact fun h => ⟨t.dt, t.st, h, False.elim⟩

/-- An operation that neither reads nor writes the timers keeps the relation. -/
theorem timersDiffer_map {f : State → State} (hf : ∀ s d e, f (s.withTimers d e) = (f s).withTimers d e)
    (hdt : ∀ s, (f s).dt = s.dt) (h : timersDiffer sameDt s t) : timersDiffer sameDt (f s) (f t) := by
  obtain ⟨d, e, rfl, hd⟩ := h
  exact ⟨d, e, hf s d e, fun hp => (hd hp).trans (hdt s).symm⟩

theorem timersDiffer_served (h : timersDiffer sameDt s t) : timersDiffer sameDt s.served t.served :=
  timersDiffer_map (f := State.served) (fun _ _ _ => rfl) (fun _ => rfl) h

theorem timersDiffer_unpause (h : timersDiffer sameDt s t) : timersDiffer sameDt s.unpause t.unpause :=
  timersDiffer_map (f := State.unpause) (fun _ _ _ => rfl) (fun _ => rfl) h

theorem timersDiffer_captureKey (h : timersDiffer sameDt s t) : timersDiffer sameDt s.captureKey t.captureKey :=
  timersDiffer_map State.captureKey_withTimers (fun s => by rw [State.captureKey_eq]) h

theorem timersDiffer_raiseFault (r : Fault) (h : timersDiffer sameDt s t) :
    timersDiffer sameDt (s.raiseFault r) (t.raiseFault r) :=
  timersDiffer_map (f := fun s => s.raiseFault r) (fun _ _ _ => rfl) (fun _ => rfl) h

theorem timersDiffer_logEvent_advance (e : LogEvent) (h : timersDiffer sameDt s t) :
    timersDiffer sameDt (s.logEvent e).advance (t.logEvent e).advance :=
  timersDiffer_map (f := fun s => (s.logEvent e).advance) (fun _ _ _ => rfl) (fun _ => rfl) h

theorem timersDiffer_pauseAfter_served (h : timersDiffer sameDt s t) :
    timersDiffer sameDt s.pauseAfter.served t.pauseAfter.served :=
  timersDiffer_served (timersDiffer_map State.pauseAfter_withTimers (fun s => s.pauseAfter_dt) h)

/-- The tick acts on each timer's own value (R200). -/
theorem timersDiffer_tickTimers (h : timersDiffer sameDt s t) : timersDiffer sameDt s.tickTimers t.tickTimers := by
  obtain ⟨d, e, rfl, hd⟩ := h
  exact ⟨satDec d, satDec e, rfl, fun hp => congrArg satDec (hd hp)⟩

/-- Every instruction keeps the relation, FX07 if DT is the same (R201). -/
theorem timersDiffer_exec {i : Instr} (h : timersDiffer sameDt s t) (hread : ∀ x, i = .ldFromDt x → sameDt) :
    answersAgree (timersDiffer sameDt) (exec i s) (exec i t) := by
  obtain ⟨d, e, rfl, hd⟩ := h
  by_cases h07 : ∃ x, i = .ldFromDt x
  · obtain ⟨x, rfl⟩ := h07
    rw [hd (hread x rfl)]
    exact ⟨s.dt, e, rfl, fun _ => rfl⟩
  by_cases h15 : ∃ x, i = .ldDt x
  · obtain ⟨x, rfl⟩ := h15
    exact ⟨s.getV x, e, rfl, fun _ => rfl⟩
  by_cases h18 : ∃ x, i = .ldSt x
  · obtain ⟨x, rfl⟩ := h18
    exact ⟨d, s.getV x, rfl, hd⟩
  rw [exec_withTimers s d e (not_exists.1 h07) (not_exists.1 h15) (not_exists.1 h18)]
  exact answersAgree_mapNext fun u hu => ⟨d, e, rfl, fun hp => (hd hp).trans (exec_dt hu (not_exists.1 h15)).symm⟩

/-- Two calls from states that differ in the timers take the same branches, so their answers are related by R if the
relation implies R and the decoded instruction's answers are related by R after step 8. -/
theorem step_timersDiffer {R : State → State → Prop} (h : timersDiffer sameDt s t)
    (hR : ∀ u z, timersDiffer sameDt u z → R u z)
    (hexec : ∀ i, decode s.wordAtPc = .instr i → ∀ u z, timersDiffer sameDt u z →
      answersAgree (fun u z => R u.pauseAfter.served z.pauseAfter.served) (exec i u) (exec i z)) :
    answersAgree R (step s) (step t) := by
  have htick := timersDiffer_tickTimers (timersDiffer_unpause h)
  have hcapture := hR _ _ (timersDiffer_served (timersDiffer_captureKey h))
  have hserved := hR _ _ (timersDiffer_served h)
  have hunpause := hR _ _ (timersDiffer_served (timersDiffer_unpause h))
  obtain ⟨d, e, rfl, -⟩ := h
  refine step_related rfl rfl rfl rfl rfl hcapture hserved hunpause (runInstr_related ?_ (fun r => ?_) ?_)
  · exact State.fetch_congr rfl rfl rfl
  · exact hR _ _ (timersDiffer_served (timersDiffer_raiseFault r htick))
  · exact execWord_related (fun i hi => hexec i hi _ _ htick)
      fun w => hR _ _ (timersDiffer_pauseAfter_served (timersDiffer_logEvent_advance _ htick))

/-- A call keeps the relation, one that fetches FX07 if DT is the same (R201). -/
theorem step_keeps_timersDiffer (h : timersDiffer sameDt s t)
    (hread : ∀ x, decode s.wordAtPc = .instr (.ldFromDt x) → sameDt) :
    answersAgree (timersDiffer sameDt) (step s) (step t) := by
  refine step_timersDiffer h (fun _ _ => id) fun i hi u z huz => ?_
  exact answersAgree_imp (fun _ _ => timersDiffer_pauseAfter_served)
    (timersDiffer_exec huz fun x hx => hread x (hx ▸ hi))

/-- Two states that agree on everything but the timers and V[x]. -/
def timersAndRegDiffer (x : Reg) (s t : State) : Prop :=
  t = { s with dt := t.dt, st := t.st, v := t.v } ∧ ∀ r, r ≠ x → t.getV r = s.getV r

theorem timersAndRegDiffer_of_timersDiffer (x : Reg) (h : timersDiffer sameDt s t) : timersAndRegDiffer x s t := by
  obtain ⟨d, e, rfl, -⟩ := h
  exact ⟨rfl, fun _ _ => rfl⟩

/-- FX07 carries a difference in DT to V[x] and nowhere else (R204). -/
theorem timersAndRegDiffer_exec_ldFromDt (x : Reg) (h : timersDiffer sameDt s t) :
    answersAgree (fun u z => timersAndRegDiffer x u.pauseAfter.served z.pauseAfter.served)
      (exec (.ldFromDt x) s) (exec (.ldFromDt x) t) := by
  obtain ⟨d, e, rfl, -⟩ := h
  refine ⟨?_, fun r hr => ?_⟩
  · simp only [State.pauseAfter_eq]
    rfl
  · simp only [State.getV_served, State.getV_pauseAfter, State.getV_advance, State.getV_setV_of_ne _ _ hr]
    rfl

theorem step_timersAndRegDiffer {x : Reg} (h : timersDiffer sameDt s t)
    (hx : decode s.wordAtPc = .instr (.ldFromDt x)) : answersAgree (timersAndRegDiffer x) (step s) (step t) := by
  refine step_timersDiffer h (fun _ _ => timersAndRegDiffer_of_timersDiffer x) fun i hi u z huz => ?_
  cases hi.symm.trans hx
  exact timersAndRegDiffer_exec_ldFromDt x huz

end TimersDiffer

/-- Settles O59: a difference in the timers reaches the rest of the state through FX07's transfer of DT alone. -/
theorem timersActOnlyWhereRead : Obligations.TimersActOnlyWhereRead := by
  unfold Obligations.TimersActOnlyWhereRead
  refine ⟨fun s t h => ?_, fun s t h hw => ?_, fun s t x h hx => ?_, fun s x => ⟨?_, ?_, ?_⟩⟩
  · exact answersAgree_imp (fun _ _ => timersDiffer_true_iff.1)
      (step_keeps_timersDiffer (timersDiffer_true_iff.2 h) fun _ _ => trivial)
  · exact answersAgree_imp (fun _ _ => timersDiffer_false_iff.1)
      (step_keeps_timersDiffer (timersDiffer_false_iff.2 h) hw)
  · exact step_timersAndRegDiffer (timersDiffer_false_iff.2 h) hx
  · exact ⟨_, rfl, s.getV_setV_self x s.dt, rfl⟩
  · exact ⟨_, rfl, rfl, rfl⟩
  · exact ⟨_, rfl, rfl, rfl⟩

end Sys2Proof.Machine

/-! The faults of a call (R221 to R232). -/

namespace Sys2Proof.Machine

/-- Settles O33: each instruction with a fault raises it in one of its outcomes, whose condition is the cause, and every
other outcome leaves FAULT. -/
theorem faultsRaisedOnlyForTheirCause : Obligations.FaultsRaisedOnlyForTheirCause := by
  unfold Obligations.FaultsRaisedOnlyForTheirCause
  intro i s t r hf h hr
  cases i with
  | call nnn =>
    rcases exec_call_cases h with ⟨_, rfl⟩ | ⟨hfull, rfl⟩
    · cases hf.symm.trans hr
    · cases hr
      exact .inl ⟨⟨nnn, rfl⟩, hfull, rfl, rfl⟩
  | ldB x =>
    rcases exec_ldB_cases h with ⟨-, rfl⟩ | ⟨hout, rfl⟩
    · cases hf.symm.trans hr
    · cases hr
      exact .inr (.inl ⟨.inl ⟨x, rfl, not_le.1 hout⟩, rfl, rfl⟩)
  | store x =>
    rcases exec_store_cases h with ⟨-, rfl⟩ | ⟨hout, rfl⟩
    · cases hf.symm.trans hr
    · cases hr
      exact .inr (.inl ⟨.inr (.inl ⟨x, rfl, not_le.1 hout⟩), rfl, rfl⟩)
  | load x =>
    rcases exec_load_cases h with ⟨-, rfl⟩ | ⟨hout, rfl⟩
    · cases hf.symm.trans hr
    · cases hr
      exact .inr (.inl ⟨.inr (.inr (.inl ⟨x, rfl, not_le.1 hout⟩)), rfl, rfl⟩)
  | drw x y n =>
    rcases exec_drw_cases h with ⟨-, rfl⟩ | ⟨hpos, hout, rfl⟩
    · cases hf.symm.trans hr
    · cases hr
      exact .inr (.inl ⟨.inr (.inr (.inr ⟨x, y, n, rfl, hpos, not_le.1 hout⟩)), rfl, rfl⟩)
  | skp x =>
    rcases exec_skp_cases h with ⟨_, rfl⟩ | ⟨hgt, rfl⟩
    · simp [hf] at hr
    · cases hr
      exact .inr (.inr ⟨x, .inl rfl, hgt, rfl, rfl⟩)
  | sknp x =>
    rcases exec_sknp_cases h with ⟨_, rfl⟩ | ⟨hgt, rfl⟩
    · simp [hf] at hr
    · cases hr
      exact .inr (.inr ⟨x, .inr rfl, hgt, rfl, rfl⟩)
  | ret => rcases exec_ret_cases h with ⟨_, rfl⟩ | ⟨-, rfl⟩ <;> cases hf.symm.trans hr
  | _ => cases h; simp [hf] at hr

section Faulting

variable {s t : State} {r : Fault} {i : Instr} {w : Word}

/-- An instruction that faults sets FAULT to a reason that names its pc, and does nothing else (R229, R230). -/
theorem exec_eq_raiseFault (hf : s.fault = none) (h : exec i s = .next t) (hr : t.fault = some r) :
    r.pc = s.pc ∧ t = s.raiseFault r := by
  rcases exec_fault_cases h with he | ⟨q, hq, rfl⟩
  · cases (he.trans hf).symm.trans hr
  · cases hr
    exact ⟨hq, rfl⟩

/-- A word whose dispatch faults is an instruction's: an unmatched word raises nothing (R98). -/
theorem execWord_eq_raiseFault (hf : s.fault = none) (h : execWord w s = .next t) (hr : t.fault = some r) :
    ∃ i, decode w = .instr i ∧ exec i s = .next (s.raiseFault r) ∧ r.pc = s.pc ∧ t = s.raiseFault r := by
  rcases execWord_cases h with ⟨i, hi, he⟩ | ⟨u, -, rfl⟩
  · obtain ⟨hpc, rfl⟩ := exec_eq_raiseFault hf he hr
    exact ⟨i, hi, he, hpc, rfl⟩
  · cases hf.symm.trans hr

/-- No pause follows a fault (R229). -/
theorem State.pauseAfter_raiseFault (s : State) (r : Fault) : (s.raiseFault r).pauseAfter = s.raiseFault r :=
  if_neg nofun

/-- A call that ends in the wait or in the pause raises no fault (R93, R94). -/
theorem reachesStep3_of_step_fault (hf : s.fault = none) (h : step s = .next t) (hr : t.fault = some r) :
    s.reachesStep3 := by
  by_contra hn
  have ht : t.fault = s.fault := by
    rcases step_blocked_cases h hn with rfl | rfl | rfl
    exacts [s.captureKey_fault, rfl, rfl]
  cases (ht.trans hf).symm.trans hr

/-- Everything a call that faults can do: the tick, then the fault of the fetch or of the instruction (R229, R230). -/
theorem step_fault_cases (hf : s.fault = none) (h : step s = .next t) (hr : t.fault = some r) :
    t = (s.unpause.tickTimers.raiseFault r).served ∧ r.pc = s.pc ∧
    ((¬ s.fetchOk ∧ s.fetch = .error r) ∨
     (s.fetchOk ∧ ∃ i, decode s.wordAtPc = .instr i ∧
       exec i s.unpause.tickTimers = .next (s.unpause.tickTimers.raiseFault r))) := by
  rcases step_reachesStep3_cases h (reachesStep3_of_step_fault hf h hr) with
    ⟨hbad, q, hq, rfl⟩ | ⟨hok, u, hu, rfl⟩
  · cases hr
    exact ⟨rfl, State.fetch_error_pc hq, .inl ⟨hbad, hq⟩⟩
  · rw [State.served_fault, State.pauseAfter_fault] at hr
    obtain ⟨i, hi, he, hpc, rfl⟩ := execWord_eq_raiseFault (s := s.unpause.tickTimers) hf hu hr
    exact ⟨by rw [State.pauseAfter_raiseFault], hpc, .inr ⟨hok, i, hi, he⟩⟩

/-- A call that reaches a failing fetch ticks the timers and records the fetch's fault (R96, R229). -/
theorem step_of_fetch_error (h3 : s.reachesStep3) (h : s.fetch = .error r) :
    step s = .next (s.unpause.tickTimers.raiseFault r).served :=
  (step_of_reachesStep3 h3).trans (runInstr_of_fetch_error h)

end Faulting

/-- Settles O32: a faulting call is the tick and the fault of its fetch or its instruction, and the fetch's reason is
the check that fails. -/
theorem faultsArePrecise : Obligations.FaultsArePrecise := by
  unfold Obligations.FaultsArePrecise
  refine ⟨fun s t r hf h hr => ?_, fun s h3 => ⟨fun hout => ?_, fun hin hodd hp => ?_⟩⟩
  · obtain ⟨-, hl, -⟩ := reachesStep3_of_step_fault hf h hr
    obtain ⟨ht, hpc, hcause⟩ := step_fault_cases hf h hr
    refine ⟨ht, hpc, hl, ?_⟩
    rcases hcause with ⟨hbad, hfetch⟩ | ⟨hok, i, hi, he⟩
    · refine ⟨fun hout => ?_, fun hin hodd hp => ?_, fun hok => absurd hok hbad⟩
      · cases hfetch.symm.trans (State.fetch_of_outOfRange hout)
        exact ⟨rfl, rfl⟩
      · cases hfetch.symm.trans (State.fetch_of_misaligned hin hodd hp)
        exact ⟨rfl, rfl⟩
    · have hword := State.fetch_of_fetchOk hok
      refine ⟨fun hout => ?_, fun hin hodd hp => ?_, fun _ => ⟨i, _, hi, he, rfl⟩⟩
      · cases hword.symm.trans (State.fetch_of_outOfRange hout)
      · cases hword.symm.trans (State.fetch_of_misaligned hin hodd hp)
  · exact ⟨_, step_of_fetch_error h3 (State.fetch_of_outOfRange hout), rfl⟩
  · exact ⟨_, step_of_fetch_error h3 (State.fetch_of_misaligned hin hodd hp), rfl⟩

/-! The latch (R233). -/

section Latch

variable {s t : State} {w : Word}

/-- Dispatch sets LATCH only when the word is FX0A's (R35, R205). -/
theorem execWord_sets_latch (h : execWord w s = .next t) (hs : s.latch = false) (ht : t.latch = true) :
    ∃ x, decode w = .instr (.ldK x) ∧ t.latchDest = x := by
  by_cases hw : ∃ x, decode w = .instr (.ldK x)
  · obtain ⟨x, hx⟩ := hw
    rw [execWord_of_instr s hx] at h
    cases h
    exact ⟨x, hx, rfl⟩
  · have hkeep : t.latch = s.latch := execWord_latch h fun x hx => hw ⟨x, hx⟩
    cases (hkeep.trans hs).symm.trans ht

/-- A call sets LATCH only when it executes FX0A (R233). -/
theorem step_sets_latch (h : step s = .next t) (hs : s.latch = false) (ht : t.latch = true) :
    ∃ x, decode s.wordAtPc = .instr (.ldK x) ∧ t.latchDest = x := by
  obtain ⟨-, ⟨hl, -⟩ | ⟨-, -, -, rfl⟩ | ⟨-, -, -, -, rfl⟩ | ⟨-, -, hrun⟩⟩ := step_cases h
  · cases hs.symm.trans hl
  · cases hs.symm.trans ht
  · cases hs.symm.trans ht
  · rcases runInstr_fetch_cases hrun with ⟨-, r, -, rfl⟩ | ⟨-, u, hu, rfl⟩
    · cases hs.symm.trans ht
    · rw [State.served_latch, State.pauseAfter_latch] at ht
      rw [State.served_latchDest, State.pauseAfter_latchDest]
      exact execWord_sets_latch hu hs ht

/-- While LATCH is set a call is the key capture alone (R93). -/
theorem step_eq_captureKey (h : step s = .next t) (hl : s.latch = true) : t = s.captureKey.served := by
  obtain ⟨hf, -⟩ := step_cases h
  rw [step_of_latch hf hl] at h
  cases h
  rfl

/-- The key capture writes no register but the latch's destination (R93). -/
theorem State.captureKey_getV_of_ne {q : Reg} (h : q ≠ s.latchDest) : s.captureKey.getV q = s.getV q := by
  cases hk : lowestPressed s.input.keypad with
  | none => rw [State.captureKey_of_noKey (lowestPressed_eq_none.1 hk)]
  | some k =>
    rw [State.captureKey_of_lowest hk, State.getV_setV_of_ne _ _ h]
    rfl

/-- The load writes memory, pc and the mark that it was made (R253). -/
theorem State.load_eq_of_next {font : Config.Font} {bytes : List Byte} {length start : Nat}
    (h : s.load font bytes length start = .next t) : t = { s with mem := t.mem, pc := t.pc, loadOpen := false } := by
  unfold State.load at h
  split_ifs at h
  cases h
  rfl

end Latch

/-- Settles O58: while pending a call is the key capture alone, and dispatch sets the latch only by FX0A. -/
theorem latchIsTheOnlyInterruptSource : Obligations.LatchIsTheOnlyInterruptSource := by
  unfold Obligations.LatchIsTheOnlyInterruptSource
  refine ⟨fun s t h => ⟨step_sets_latch h, fun hl ht => ?_, fun hl => ?_⟩, fun font bytes length start s t h => ?_⟩
  · by_contra hnone
    rw [step_eq_captureKey h hl, State.captureKey_of_noKey (by simpa using hnone)] at ht
    cases hl.symm.trans ht
  · rw [step_eq_captureKey h hl, State.captureKey_eq]
    exact ⟨rfl, rfl, rfl, rfl, rfl, rfl, rfl, rfl, fun _ => rfl, fun q hq => State.captureKey_getV_of_ne hq⟩
  · rw [State.load_eq_of_next h]

end Sys2Proof.Machine

/-! Reset and load (R250 to R255). -/

namespace Sys2Proof.Machine

/-! Construction (R250). -/

/-- Settles O21: the register file, the stack and the framebuffer are replicated values, every other element is one
value. -/
theorem resetIsTheConstructionState : Obligations.ResetIsTheConstructionState := by
  unfold Obligations.ResetIsTheConstructionState
  have hv (r : Reg) : State.reset.getV r = 0 := Vector.getElem_replicate r.isLt
  have hstack (k : Nat) (h : k < 16) : State.reset.stack[k] = 0 := Vector.getElem_replicate h
  exact ⟨fun _ => rfl, hv, rfl, rfl, hstack, rfl, rfl, rfl, Framebuffer.pixel_blank, rfl, rfl, rfl, rfl, rfl⟩

theorem Memory.wf_nil : Memory.wf [] := ⟨.nil, nofun⟩

/-- Settles O23: memory is the empty list, no return address is in use, and every flag is clear. -/
theorem resetMeetsTheStateInvariant : Obligations.ResetMeetsTheStateInvariant where
  memWf := Memory.wf_nil
  pausedLevel := nofun
  pcBound := Nat.zero_le _
  returnBound _ h := absurd h (Nat.not_lt_zero _)
  faultPc := nofun
  loadOpenSafe _ := rfl

/-! What a load's two block writes leave in memory (R253). -/

section LoadedMemory

variable {m : Memory} {font : Config.Font} {bytes : List Byte} {length start : Nat}

/-- Memory after the load: the program's bytes at start, then the font over them at 0. -/
def Memory.loaded (m : Memory) (font : Config.Font) (bytes : List Byte) (length start : Nat) : Memory :=
  (m.writeBytes start (bytes.take length)).writeBytes 0 font.toList

theorem Memory.program_wf (hm : m.wf) (hfit : start + length ≤ 4096) :
    (m.writeBytes start (bytes.take length)).wf := by
  have hlen := List.length_take_le length bytes
  exact Memory.writeBytes_wf hm _ _ (by omega)

theorem Memory.loaded_wf (hm : m.wf) (hfit : start + length ≤ 4096) : (m.loaded font bytes length start).wf :=
  Memory.writeBytes_wf (Memory.program_wf hm hfit) _ _ (by simp)

theorem Memory.read_loaded_font (hm : m.wf) (hfit : start + length ≤ 4096) {a : Nat} (ha : a < 80) :
    (m.loaded font bytes length start).read a = font[a] := by
  have hread := Memory.read_writeBytes_inside (Memory.program_wf (bytes := bytes) hm hfit) 0 font.toList (by simp) a
    (by simpa using ha)
  rwa [Nat.zero_add] at hread

/-- From address 80 upwards the font writes nothing. -/
theorem Memory.read_loaded_of_aboveFont {a : Nat} (ha : 80 ≤ a) :
    (m.loaded font bytes length start).read a = (m.writeBytes start (bytes.take length)).read a :=
  Memory.read_writeBytes_of_outside _ _ _ _ (by simpa using ha)

theorem Memory.read_loaded_program (hm : m.wf) (hfit : start + length ≤ 4096) {k : Nat} (hk : k < bytes.length)
    (hkl : k < length) (ha : 80 ≤ start + k) : (m.loaded font bytes length start).read (start + k) = bytes[k] := by
  have hlen := List.length_take_le length bytes
  rw [Memory.read_loaded_of_aboveFont ha,
    Memory.read_writeBytes_inside hm _ _ (by omega) k (by rw [List.length_take]; omega), List.getElem_take]

theorem Memory.read_loaded_elsewhere {a : Nat} (ha : 80 ≤ a) (hout : a < start ∨ start + length ≤ a) :
    (m.loaded font bytes length start).read a = m.read a := by
  have hlen := List.length_take_le length bytes
  rw [Memory.read_loaded_of_aboveFont ha, Memory.read_writeBytes_of_outside _ _ _ _ (by omega)]

end LoadedMemory

/-! What a load can do (R252 to R254). -/

section Load

variable {s t : State} {font : Config.Font} {bytes : List Byte} {length start : Nat}

/-- The preconditions of a load (R252, R254). -/
abbrev State.acceptsLoad (s : State) (bytes : List Byte) (length start : Nat) : Prop :=
  s.loadOpen = true ∧ start + length ≤ 4096 ∧ length ≤ 3584 ∧ length ≤ bytes.length

/-- The state after an accepted load (R253). -/
def State.loaded (s : State) (font : Config.Font) (bytes : List Byte) (length start : Nat) : State :=
  { s with mem := s.mem.loaded font bytes length start, pc := BitVec.ofNat 16 start, loadOpen := false }

theorem State.load_of_accepts (h : s.acceptsLoad bytes length start) :
    s.load font bytes length start = .next (s.loaded font bytes length start) := by
  obtain ⟨hopen, hfit, hlen, hbytes⟩ := h
  rw [State.load, if_neg (by simp [hopen]), if_neg (by omega), if_neg (by omega)]
  rfl

theorem State.load_of_closed (h : s.loadOpen = false) : s.load font bytes length start = .refused .loadNotFirst :=
  if_pos h

theorem State.load_of_not_accepts (h : ¬ s.acceptsLoad bytes length start) :
    ∃ r, s.load font bytes length start = .refused r := by
  unfold State.load
  split_ifs with hclosed hpast hlong
  · exact ⟨_, rfl⟩
  · exact ⟨_, rfl⟩
  · exact ⟨_, rfl⟩
  · exact absurd ⟨Bool.eq_true_of_not_eq_false hclosed, by omega, by omega, by omega⟩ h

/-- A load answers a next state only when its preconditions hold, and that state is the loaded one. -/
theorem State.load_eq_next_iff : s.load font bytes length start = .next t ↔
    s.acceptsLoad bytes length start ∧ t = s.loaded font bytes length start := by
  by_cases h : s.acceptsLoad bytes length start
  · rw [State.load_of_accepts h, Host.Outcome.next.injEq]
    exact ⟨fun ht => ⟨h, ht.symm⟩, fun ht => ht.2.symm⟩
  · obtain ⟨r, hr⟩ := State.load_of_not_accepts (font := font) h
    rw [hr]
    exact ⟨nofun, fun ht => absurd ht.1 h⟩

theorem State.loaded_pc_toNat (h : start ≤ 4096) : (s.loaded font bytes length start).pc.toNat = start := by
  rw [State.loaded, BitVec.toNat_ofNat]
  omega

theorem State.Inv.loaded (h : s.Inv) (ha : s.acceptsLoad bytes length start) :
    (s.loaded font bytes length start).Inv := by
  obtain ⟨hopen, hfit, -, -⟩ := ha
  have hsafe : s.fault = none := h.loadOpenSafe hopen
  exact {
    memWf := Memory.loaded_wf h.memWf hfit
    pausedLevel := h.pausedLevel
    pcBound := by rw [State.loaded_pc_toNat (by omega)]; omega
    returnBound := h.returnBound
    faultPc := fun r hr => nomatch hsafe.symm.trans hr
    loadOpenSafe := nofun }

/-- Every cycle call that has a step ends by serving its request, which closes the load (R254). -/
theorem step_loadOpen (h : step s = .next t) : t.loadOpen = false := by
  obtain ⟨-, ⟨-, rfl⟩ | ⟨-, -, -, rfl⟩ | ⟨-, -, -, -, rfl⟩ | ⟨-, -, hrun⟩⟩ := step_cases h
  · rfl
  · rfl
  · rfl
  · rcases runInstr_cases hrun with ⟨_, -, rfl⟩ | ⟨_, -, -, -, rfl⟩ <;> rfl

end Load

/-- Settles O25: an accepted load finds no fault recorded, writes inside memory, and sets pc to at most 4096. -/
theorem loadKeepsTheStateInvariant : Obligations.LoadKeepsTheStateInvariant := by
  unfold Obligations.LoadKeepsTheStateInvariant
  intro font bytes length start s t hs h
  obtain ⟨ha, rfl⟩ := State.load_eq_next_iff.1 h
  exact hs.loaded ha

/-- Settles O34: below 80 a read finds the font, above it the program where the program lies, and elsewhere what was
there before. -/
theorem loadWritesProgramThenFontThenPc : Obligations.LoadWritesProgramThenFontThenPc := by
  unfold Obligations.LoadWritesProgramThenFontThenPc
  intro font bytes length start s hm hopen hfit hlen hbytes
  exact ⟨_, State.load_of_accepts ⟨hopen, hfit, hlen, hbytes⟩, State.loaded_pc_toNat (by omega),
    fun _ ha => Memory.read_loaded_font hm hfit ha,
    fun _ hk hkl ha => Memory.read_loaded_program hm hfit hk hkl ha,
    fun _ ha hout => Memory.read_loaded_elsewhere ha hout, rfl⟩

/-- Settles O35: each broken precondition is refused, and both an accepted load and a cycle call close the load. -/
theorem loadRefusedOnBrokenPrecondition : Obligations.LoadRefusedOnBrokenPrecondition := by
  unfold Obligations.LoadRefusedOnBrokenPrecondition
  intro font bytes length start s
  refine ⟨fun hbroken => ?_, State.load_of_closed, fun t h => ?_, fun t => step_loadOpen⟩
  · exact State.load_of_not_accepts fun ⟨_, hfit, hlen, _⟩ => by omega
  · rw [State.load_eq_of_next h]

/-! Cycle calls with no load (R255). -/

theorem run_one (M : Host.Core) (s : M.State) : M.run 1 s = M.step s := by
  rw [run_succ]
  cases M.step s <;> rfl

/-- One more step at the end of a run, of any machine. -/
theorem run_succ_of_run (M : Host.Core) {k : Nat} {s t : M.State} (h : M.run k s = .next t) :
    M.run (k + 1) s = M.step t := by
  induction k generalizing s with
  | zero =>
    cases h
    exact run_one M _
  | succ k ih =>
    cases hs : M.step s with
    | next u =>
      rw [run_succ_of_step M k hs] at h
      rw [run_succ_of_step M (k + 1) hs, ih h]
    | _ => rw [run_succ, hs] at h; cases h

/-- What k calls from construction leave behind: a running machine over zeroed memory, pc and the log moved on. -/
structure State.SlidBy (k : Nat) (s : State) : Prop where
  running : s.isRunning
  memZero : ∀ a, s.mem.read a = 0
  pcAt : s.pc.toNat = 2 * k
  logged : s.log = List.replicate k (.sysCall 0)
  dtZero : s.dt = 0
  stZero : s.st = 0
  noPause : s.params.debugLevel ≠ 3

section Slide

variable {s : State} {k : Nat}

theorem State.slidBy_reset : State.reset.SlidBy 0 where
  running := ⟨rfl, rfl, rfl⟩
  memZero _ := rfl
  pcAt := rfl
  logged := rfl
  dtZero := rfl
  stZero := rfl
  noPause := by decide

theorem State.SlidBy.decode_wordAtPc (h : s.SlidBy k) : decode s.wordAtPc = .instr (.sys 0) := by
  have hword : s.wordAtPc = 0 := by rw [State.wordAtPc, h.memZero, h.memZero]; rfl
  rw [hword]
  rfl

/-- A call with pc inside memory executes SYS 0 (R120, R255). -/
theorem State.SlidBy.step_eq (h : s.SlidBy k) (hk : k < 2048) :
    step s = .next (s.tickTimers.logEvent (.sysCall 0)).advance.pauseAfter.served := by
  have hpc := h.pcAt
  have hok : s.fetchOk := ⟨by omega, .inl (by omega)⟩
  rw [step_of_running h.running, runInstr_of_fetchOk hok, execWord_of_instr _ h.decode_wordAtPc]
  rfl

theorem State.SlidBy.step_slides (h : s.SlidBy k) (hk : k < 2048) :
    ∃ t, step s = .next t ∧ t.SlidBy (k + 1) := by
  have hstep := h.step_eq hk
  obtain ⟨⟨hf, hl, hp⟩, hmem, hpc, hlog, hdt, hst, hlevel⟩ := h
  exact ⟨_, hstep, {
    running := ⟨by simpa using hf, by simpa using hl, by simp [hp, hlevel]⟩
    memZero := by simpa using hmem
    pcAt := by
      rw [State.served_pc, State.pauseAfter_pc, State.advance_pc, State.logEvent_pc, State.tickTimers_pc]
      bv_omega
    logged := by simp [hlog, List.replicate_succ]
    dtZero := by simp [hdt, satDec]
    stZero := by simp [hst, satDec]
    noPause := by simpa using hlevel }⟩

theorem run_reset_slidBy (hk : k ≤ 2048) : ∃ t, Sys2Proof.core.run k State.reset = .next t ∧ t.SlidBy k := by
  induction k with
  | zero => exact ⟨_, rfl, State.slidBy_reset⟩
  | succ k ih =>
    obtain ⟨t, ht, hslid⟩ := ih (by omega)
    rw [run_succ_of_run Sys2Proof.core ht]
    exact hslid.step_slides (by omega)

/-- The call with pc just past the last word faults (R96, R255). -/
theorem State.SlidBy.step_fault (h : s.SlidBy 2048) :
    ∃ t, step s = .next t ∧ t.fault = some (.fetchOutOfRange 4096) := by
  have hpc : s.pc = 4096 := BitVec.eq_of_toNat_eq h.pcAt
  have hfetch : s.fetch = .error (.fetchOutOfRange 4096) := by
    rw [State.fetch_of_outOfRange (by rw [h.pcAt]; decide), hpc]
  exact ⟨_, (step_of_running h.running).trans (runInstr_of_fetch_error hfetch), rfl⟩

end Slide

/-- Settles O36: each call through zeroed memory is SYS 0, and 2048 of them move pc past its last word. -/
theorem callsBeforeLoadSlideToTheFault : Obligations.CallsBeforeLoadSlideToTheFault := by
  unfold Obligations.CallsBeforeLoadSlideToTheFault
  refine ⟨fun k hk => ?_, ?_⟩
  · obtain ⟨t, ht, hslid⟩ := run_reset_slidBy hk
    exact ⟨t, ht, hslid.pcAt, hslid.running.1, hslid.logged, hslid.dtZero, hslid.stZero⟩
  · obtain ⟨t, ht, hslid⟩ := run_reset_slidBy (le_refl 2048)
    rw [run_succ_of_run Sys2Proof.core ht]
    exact hslid.step_fault

end Sys2Proof.Machine
